-- ==== Sys2Proof/Word.lean ====
section
/-! DEFINITION. The words of the block and the three enumerations its commands and registers are made of (00_scope.md R2, R6, R8). -/

namespace Sys2Proof

/-- One byte of a buffer or of a byte lane (R8). -/
abbrev Byte := BitVec 8

/-- An operand port I0, I1, I2, LEN, or a command word (R7). -/
abbrev Word32 := BitVec 32

/-- The value operand A, a view's value, a scalar result (R7). -/
abbrev Word64 := BitVec 64

/-- The four integer widths (R2); what the two-bit code WC selects (R62). -/
inductive Width where
  | w16 | w32 | w48 | w64
  deriving DecidableEq, Repr

/-- The byte order: Big, most significant byte first; Little, least significant byte first (R15). -/
inductive Format where
  | big | little
  deriving DecidableEq, Repr

/-- The signedness of a value type (R2). -/
inductive Signedness where
  | unsigned | signed
  deriving DecidableEq, Repr

end Sys2Proof
end

