-- ==== Sys2Proof/Syntax.lean ====
section
/-! DEFINITION. The commands of the block, one constructor per row of spec/opcode_table.json (30_encoding.md R68). -/

namespace Sys2Proof

/-- The fourteen commands, with the fields of the command word each one uses (R68, R69). Operands are not packed into the word (R67):
they stand on the operand ports. -/
inductive Instr where
  /-- SHIFT (R80). -/
  | shift (w : Width) (f : Format)
  /-- LDV (R90). -/
  | ldv (w : Width) (f : Format) (g : Signedness)
  /-- LDB (R92). -/
  | ldb (w : Width) (f : Format) (g : Signedness)
  /-- BYTE (R94). -/
  | byte
  /-- COUNT (R96). -/
  | count
  /-- GETV (R97). -/
  | getv
  /-- ENUM (R110). -/
  | enum
  /-- ADV (R111). -/
  | adv
  /-- RST (R112). -/
  | rst
  /-- CUR (R113). -/
  | cur
  /-- TOARR (R115). -/
  | toarr
  /-- TOLIST (R116). -/
  | tolist
  /-- COPY (R130). -/
  | copy
  /-- COPYR (R131). -/
  | copyr
  deriving DecidableEq, Repr

end Sys2Proof
end

