-- ==== Sys2Proof/WellFormed.lean ====
section
/-! DEFINITION. What a legal command is, said twice: of a term of `Instr`, and of a command word by the match and mask values of
R68. The decoder (R69) is written without this file; that the two agree is a statement. -/

namespace Sys2Proof

/-- Every term of `Instr` is a legal command: all four width codes, both formats and both signednesses are legal (R62, R63, R64), and a
command that uses no field has none (R69). One arm per constructor, so that a new one must be thought about. -/
def Instr.wellFormed : Instr → Bool
  | .shift _ _ => true
  | .ldv _ _ _ => true
  | .ldb _ _ _ => true
  | .byte => true
  | .count => true
  | .getv => true
  | .enum => true
  | .adv => true
  | .rst => true
  | .cur => true
  | .toarr => true
  | .tolist => true
  | .copy => true
  | .copyr => true

/-- One row of the match and mask table of R68. -/
structure OpcodeRow where
  mnemonic : String
  mask : Word32
  pattern : Word32
  deriving DecidableEq, Repr

/-- The match and mask table of R68, row by row. -/
def opcodeRows : List OpcodeRow := [
  ⟨"SHIFT", 0xFFFFFF8F, 0x00000001⟩,
  ⟨"LDV", 0xFFFFFF0F, 0x00000002⟩,
  ⟨"LDB", 0xFFFFFF0F, 0x00000003⟩,
  ⟨"BYTE", 0xFFFFFFFF, 0x00000004⟩,
  ⟨"COUNT", 0xFFFFFFFF, 0x00000005⟩,
  ⟨"GETV", 0xFFFFFFFF, 0x00000006⟩,
  ⟨"ENUM", 0xFFFFFFFF, 0x00000007⟩,
  ⟨"ADV", 0xFFFFFFFF, 0x00000008⟩,
  ⟨"RST", 0xFFFFFFFF, 0x00000009⟩,
  ⟨"CUR", 0xFFFFFFFF, 0x0000000A⟩,
  ⟨"TOARR", 0xFFFFFFFF, 0x0000000B⟩,
  ⟨"TOLIST", 0xFFFFFFFF, 0x0000000C⟩,
  ⟨"COPY", 0xFFFFFFFF, 0x0000000D⟩,
  ⟨"COPYR", 0xFFFFFFFF, 0x0000000E⟩]

/-- The word matches the row: CMD & mask == match (R68). -/
def OpcodeRow.admits (r : OpcodeRow) (cmd : Word32) : Bool := (cmd &&& r.mask) == r.pattern

/-- A command word is well formed when a row of R68 admits it; the table has no other legal word. -/
def wordWellFormed (cmd : Word32) : Bool := opcodeRows.any (·.admits cmd)

end Sys2Proof
end

