-- ==== Sys2Proof/Decode.lean ====
section
/-! DEFINITION. Decoding a command word (30_encoding.md R61 to R71) and, after it, the encoder. Decoding reads the word alone (R69). -/

namespace Sys2Proof

/-- Why a word is no command; every one of them raises IllegalCommand (R143). -/
inductive DecodeError where
  /-- A bit of RSV = CMD[31:8] is set (R65). -/
  | reservedBits
  /-- OP is 0x0 or 0xF (R68). -/
  | illegalOpcode
  /-- SHIFT with S = 1 (R64). -/
  | signedShift
  /-- A command that uses none of WC, F, S has one of CMD[7:4] set (R69). -/
  | unusedFields
  deriving DecidableEq, Repr

/-- The width code WC (R62). -/
def Width.ofCode (c : BitVec 2) : Width :=
  if c = 0b00#2 then .w16 else if c = 0b01#2 then .w32 else if c = 0b10#2 then .w48 else .w64

/-- The format bit F: 0 is Big, 1 is Little (R63). -/
def Format.ofBit (b : Bool) : Format := if b then .little else .big

/-- The signedness bit S: 0 is unsigned, 1 is signed (R64). -/
def Signedness.ofBit (b : Bool) : Signedness := if b then .signed else .unsigned

/-- The decoder, in the order of R69. -/
def decode (cmd : Word32) : Except DecodeError Instr :=
  let op := cmd.extractLsb' 0 4
  let w := Width.ofCode (cmd.extractLsb' 4 2)
  let f := Format.ofBit (cmd.getLsbD 6)
  let g := Signedness.ofBit (cmd.getLsbD 7)
  if cmd.extractLsb' 8 24 ≠ 0#24 then .error .reservedBits
  else if op = 0x0#4 ∨ op = 0xF#4 then .error .illegalOpcode
  else if op = 0x1#4 ∧ g = .signed then .error .signedShift
  else if op = 0x1#4 then .ok (.shift w f)
  else if op = 0x2#4 then .ok (.ldv w f g)
  else if op = 0x3#4 then .ok (.ldb w f g)
  else if cmd.extractLsb' 4 4 ≠ 0#4 then .error .unusedFields
  else if op = 0x4#4 then .ok .byte
  else if op = 0x5#4 then .ok .count
  else if op = 0x6#4 then .ok .getv
  else if op = 0x7#4 then .ok .enum
  else if op = 0x8#4 then .ok .adv
  else if op = 0x9#4 then .ok .rst
  else if op = 0xA#4 then .ok .cur
  else if op = 0xB#4 then .ok .toarr
  else if op = 0xC#4 then .ok .tolist
  else if op = 0xD#4 then .ok .copy
  else if op = 0xE#4 then .ok .copyr
  else .error .illegalOpcode

/-- The decoder as the host asks for it. A command has one length, 32 bits (R60, R71): a row's bits above `nbits` are 0, and a number
that does not fit in `nbits` bits, or more bits than a command has, is no command (log 12). -/
def decodeTableWord (nbits w : Nat) : Option Instr :=
  if nbits ≤ 32 ∧ w < 2 ^ nbits then (decode (BitVec.ofNat 32 w)).toOption else none

/-- The code of a width (R62). -/
def Width.code : Width → BitVec 2
  | .w16 => 0b00#2
  | .w32 => 0b01#2
  | .w48 => 0b10#2
  | .w64 => 0b11#2

/-- The F bit of a format (R63). -/
def Format.bit : Format → BitVec 1
  | .big => 0#1
  | .little => 1#1

/-- The S bit of a signedness (R64). -/
def Signedness.bit : Signedness → BitVec 1
  | .unsigned => 0#1
  | .signed => 1#1

/-- A command word from its fields, high to low: RSV, S, F, WC, OP (R61). -/
def assembleWord (g : BitVec 1) (f : BitVec 1) (w : BitVec 2) (op : BitVec 4) : Word32 :=
  0#24 ++ g ++ f ++ w ++ op

/-- The word of a command (R61, R68); the fields a command does not use are 0 (R62, R63, R64). -/
def encode : Instr → Word32
  | .shift w f => assembleWord 0#1 f.bit w.code 0x1#4
  | .ldv w f g => assembleWord g.bit f.bit w.code 0x2#4
  | .ldb w f g => assembleWord g.bit f.bit w.code 0x3#4
  | .byte => assembleWord 0#1 0#1 0#2 0x4#4
  | .count => assembleWord 0#1 0#1 0#2 0x5#4
  | .getv => assembleWord 0#1 0#1 0#2 0x6#4
  | .enum => assembleWord 0#1 0#1 0#2 0x7#4
  | .adv => assembleWord 0#1 0#1 0#2 0x8#4
  | .rst => assembleWord 0#1 0#1 0#2 0x9#4
  | .cur => assembleWord 0#1 0#1 0#2 0xA#4
  | .toarr => assembleWord 0#1 0#1 0#2 0xB#4
  | .tolist => assembleWord 0#1 0#1 0#2 0xC#4
  | .copy => assembleWord 0#1 0#1 0#2 0xD#4
  | .copyr => assembleWord 0#1 0#1 0#2 0xE#4

end Sys2Proof
end

