-- ==== Sys2Proof/Config.lean ====
section
/-! DEFINITION. What is fixed for the machine: the open parameters of the spec and the one free choice it leaves. -/

namespace Sys2Proof

/-- The parameter `strict48` of R91 (D36), at the default the spec gives it. It decides whether LDV refuses a 48-bit A that is not
canonical. UNVERIFIED, see log 8. The meaning of LDV at either value is `Machine.ldvWith`. -/
def Config.strict48 : Bool := false

/-- The number of indices a buffer can have: LEN is at most 2^32-1 (R7, R67), so indices run from 0 to 2^32-2. -/
def Config.bufferLimit : Nat := 4294967295

/-- What a byte of SRC or DST that nothing has written reads as. DESIGN CHOICE, unsafe, see log 6: the spec gives the host's buffers
no contents. -/
def Config.unlistedByte : Byte := 0

/-- FREE VALUE (R162, S2; log 9). When reset arrives during a command that would have written DST, each byte it would have written
holds its old or its new value, and nothing says which: `tornByteIsNew k i` decides for DST index i at the k-th such reset. -/
opaque Config.tornByteIsNew : Nat → Nat → Bool

end Sys2Proof
end

