-- ==== Sys2Proof/Machine/State.lean ====
section
/-! DEFINITION. The state of the block (10_state.md R20, R21, R33, R34), the host's side of its interface (R27, R40, R66), and the
ways a step can stop. Plain data throughout. -/

namespace Sys2Proof.Machine

/-- Eight byte lanes, "discrete fields (not an array)" (R21): ENUM.e[0..7], and rbyte[0..7] of a response (R27). -/
structure Lanes where
  b0 : Byte
  b1 : Byte
  b2 : Byte
  b3 : Byte
  b4 : Byte
  b5 : Byte
  b6 : Byte
  b7 : Byte
  deriving DecidableEq, Repr

/-- The VIEW register (R20). -/
structure View where
  /-- A view has been constructed since reset. -/
  valid : Bool
  /-- The width code. -/
  wc : Width
  /-- The signedness. -/
  s : Signedness
  /-- The endian format. -/
  fmt : Format
  /-- The canonical value (R22). -/
  value : Word64
  deriving DecidableEq, Repr

/-- The legal values of ENUM.n: the arity N is 2, 4, 6 or 8 (R21, R34). -/
inductive Arity where
  | two | four | six | eight
  deriving DecidableEq, Repr

/-- The ENUM register (R21). -/
structure Enumerator where
  /-- An enumerator has been constructed since reset. -/
  valid : Bool
  /-- The arity N. -/
  n : Arity
  /-- The byte fields e[0..7]. -/
  e : Lanes
  /-- The cursor, an integer: BEFORE is -1 and END is n (R21). -/
  cur : Int
  deriving DecidableEq, Repr

/-- The status kinds of R140. Codes 6 and 7 are never produced (S10): they have no constructor. -/
inductive Status where
  | ok
  | invalidBufferLength
  | indexOutOfRange
  | invalidState
  | illegalCommand
  | uninitialized
  deriving DecidableEq, Repr

/-- The response to one command (R27). -/
structure Response where
  status : Status
  rval : Word64
  rbyte : Lanes
  rcount : BitVec 4
  deriving DecidableEq, Repr

/-- The operand ports (R66), as the host drives them. -/
structure Ports where
  a : Word64
  i0 : Word32
  i1 : Word32
  i2 : Word32
  len : Word32
  deriving DecidableEq, Repr

/-- One command as the host presents it: the command word and the operands (R60). -/
structure Command where
  word : Word32
  ports : Ports
  deriving DecidableEq, Repr

/-- A duty of the host that it breaks while a command is in progress (70_reset_and_hazards.md R164 to R166). -/
inductive Breach where
  /-- It presents another command (R164). -/
  | secondCommand
  /-- It writes SRC, or reads or writes DST (R165, R49). -/
  | bufferTouched
  /-- It does not hold CMD or an operand stable (R166), be the operand one that the command reads or not (DESIGN CHOICE, log 17). -/
  | operandsChanged
  /-- The LEN it gave is not the real length of its buffer (R166, S5). -/
  | lenNotTrue
  deriving DecidableEq, Repr

/-- What the host does to the block, one thing a step (log 1). -/
inductive HostEvent where
  /-- It presents a command to the idle block and keeps every duty of R164 to R166 until the response. -/
  | command (c : Command)
  /-- It writes a byte of SRC between commands (R40, R49). -/
  | writeSrc (i : Fin Config.bufferLimit) (b : Byte)
  /-- It writes a byte of DST between commands (R40, R49). -/
  | writeDst (i : Fin Config.bufferLimit) (b : Byte)
  /-- It resets the block between commands (R160, R162). -/
  | reset
  /-- It presents a command and resets the block while that command is in progress (R162). -/
  | resetDuring (c : Command)
  /-- It presents a command and breaks a duty while that command is in progress. -/
  | breach (c : Command) (b : Breach)
  deriving DecidableEq, Repr

/-- A buffer: (index, byte) cells, indices strictly rising, no cell equal to what an unlisted index reads as (`Memory.wf`). -/
abbrev Memory := List Host.Cell

/-- The whole machine: VIEW and ENUM are the block's state (R34); the ports, the buffers, the host events to come and the response
are the host's side of the interface; `choice` numbers the free choices of R162. -/
structure State where
  /-- The VIEW register (R20). -/
  view : View
  /-- The ENUM register (R21). -/
  enum : Enumerator
  /-- What the host drives on the operand ports (R66). -/
  ports : Ports
  /-- The host's source buffer (R40). -/
  src : Memory
  /-- The host's destination buffer (R40). -/
  dst : Memory
  /-- The response of the command this state has just completed; none where the last step completed no command (R27; log 2). -/
  resp : Option Response
  /-- What the host does next (log 1). -/
  inbox : List HostEvent
  /-- The model's own counter: which free choice of R162 comes next (log 9). -/
  choice : Nat
  deriving DecidableEq, Repr

/-- Accesses that the spec says do not exist. Each is raised by a shared operation of Machine/Ops.lean, none is reached by any step
(a statement says so), and each is safe: the model stops (log 11). -/
inductive Fault where
  /-- A `-` cell of the SHIFT ROM, index at or above N: raised by `romEntry`; safe (R25, U1). -/
  | romCell
  /-- A buffer index outside [0, LEN): raised by `memRead` and `memWrite`; safe (R11). -/
  | outsideBuffer
  /-- A byte lane that does not exist: raised by `laneAt`; safe (R21). -/
  | noSuchLane
  deriving DecidableEq, Repr

/-- Runs that the spec tells a model to refuse. -/
inductive Refusal where
  /-- An instruction with no meaning yet: raised by `exec` alone; safe. No arm raises it now. -/
  | notModelled (mnemonic : String)
  /-- LDV of a 48-bit type whose A is not canonical, where `strict48` is true: raised by `ldvWith`; safe (R91, U2). -/
  | strict48NonCanonical
  /-- A command presented while another is in progress: raised by `serveBreach`; safe (R164, S3). -/
  | commandWhileBusy
  /-- SRC written, or DST read or written, by the host during a command: raised by `serveBreach`; safe (R165, S4). -/
  | bufferTouched
  /-- CMD or an operand, read or not (log 17), not held stable: raised by `serveBreach`; safe (R166). -/
  | operandsChanged
  /-- LEN not the real length of the buffer: raised by `serveBreach`; safe (R166, S5). -/
  | lenNotTrue
  deriving DecidableEq, Repr

/-- What a step answers. -/
abbrev Result := Host.Outcome State Fault Refusal

/-- All eight lanes 0. -/
def Lanes.zero : Lanes := ⟨0, 0, 0, 0, 0, 0, 0, 0⟩

/-- VIEW after reset (R33). -/
def View.reset : View := { valid := false, wc := .w16, s := .unsigned, fmt := .big, value := 0 }

/-- ENUM after reset (R33). -/
def Enumerator.reset : Enumerator := { valid := false, n := .two, e := .zero, cur := -1 }

/-- The operand ports before the host drives them: 0 each. DESIGN CHOICE, see log 4. -/
def Ports.idle : Ports := { a := 0, i0 := 0, i1 := 0, i2 := 0, len := 0 }

/-- The machine right after reset (R33, R160): the block waits for the first command (R161). -/
def State.reset : State where
  view := .reset
  enum := .reset
  ports := .idle
  src := []
  dst := []
  resp := none
  inbox := []
  choice := 0

/-! One named update per field; Laws/State.lean says what each leaves alone. -/

def State.withView (s : State) (v : View) : State := { s with view := v }
def State.withEnum (s : State) (e : Enumerator) : State := { s with enum := e }
def State.withPorts (s : State) (p : Ports) : State := { s with ports := p }
def State.withSrc (s : State) (m : Memory) : State := { s with src := m }
def State.withDst (s : State) (m : Memory) : State := { s with dst := m }
def State.withResp (s : State) (r : Option Response) : State := { s with resp := r }
def State.withInbox (s : State) (l : List HostEvent) : State := { s with inbox := l }
def State.withChoice (s : State) (k : Nat) : State := { s with choice := k }

end Sys2Proof.Machine
end

