-- ==== Sys2Proof/Machine/Operands.lean ====
section
/-! DEFINITION. What the operands of a command mean: the width code's W and N (R23), the operand ports (R66, R67), and the canonical
value (R22). -/

namespace Sys2Proof.Machine

/-- The number an arity stands for (R21). -/
def Arity.toNat : Arity → Nat
  | .two => 2
  | .four => 4
  | .six => 6
  | .eight => 8

/-- The arity of a width (R23). -/
def arityOf : Width → Arity
  | .w16 => .two
  | .w32 => .four
  | .w48 => .six
  | .w64 => .eight

/-- N, the byte count of a width (R23): 2, 4, 6 or 8. -/
def bytes (w : Width) : Nat := (arityOf w).toNat

/-- W, the width in bits (R23): 16, 32, 48 or 64. -/
def bits (w : Width) : Nat := 8 * bytes w

/-- canon(wc, s, x) of R22: the low W bits, sign-extended for a signed type and zero-extended for an unsigned one. -/
def canon (w : Width) (g : Signedness) (x : Word64) : Word64 :=
  let low : BitVec (bits w) := x.extractLsb' 0 (bits w)
  match g with
  | .signed => low.signExtend 64
  | .unsigned => low.setWidth 64

/-- The operand A of LDV (R66). -/
def valueOperand (s : State) : Word64 := s.ports.a

/-- The index of SHIFT and BYTE, on I0, read as sint_32 (R66, R67). -/
def indexOperand (s : State) : Int := s.ports.i0.toInt

/-- The destinationStart of COPY, on I0 (R66). -/
def copyDestStart (s : State) : Int := s.ports.i0.toInt

/-- The sourceStart of COPYR, on I0 (R66). -/
def rangeSourceStart (s : State) : Int := s.ports.i0.toInt

/-- The destinationStart of COPYR, on I1 (R66). -/
def rangeDestStart (s : State) : Int := s.ports.i1.toInt

/-- The count of COPYR, on I2 (R66). -/
def rangeCount (s : State) : Int := s.ports.i2.toInt

/-- The length of the buffer, uint(LEN) (R66, R67). -/
def lengthOperand (s : State) : Nat := s.ports.len.toNat

end Sys2Proof.Machine
end

