-- ==== Sys2Proof/Machine/Flags.lean ====
section
/-! DEFINITION. The block has no flags (R30): every outcome of a command is in its response. The status codes (R140) and the
responses (R27) that the rules of the commands give. -/

namespace Sys2Proof.Machine

/-- The 3-bit status code (R140). -/
def Status.code : Status → BitVec 3
  | .ok => 0
  | .invalidBufferLength => 1
  | .indexOutOfRange => 2
  | .invalidState => 3
  | .illegalCommand => 4
  | .uninitialized => 5

/-- Lanes from a byte sequence: lane k is byte k, and 0 where the sequence has none (R27, R110, R115). -/
def Lanes.ofList (bs : List Byte) : Lanes :=
  ⟨bs.getD 0 0, bs.getD 1 0, bs.getD 2 0, bs.getD 3 0, bs.getD 4 0, bs.getD 5 0, bs.getD 6 0, bs.getD 7 0⟩

/-- The lanes in byte index order (R46). -/
def Lanes.toList (l : Lanes) : List Byte := [l.b0, l.b1, l.b2, l.b3, l.b4, l.b5, l.b6, l.b7]

/-- respond(rval = v, rbytes = none) of R12. -/
def Response.scalar (v : Word64) : Response := { status := .ok, rval := v, rbyte := .zero, rcount := 0 }

/-- respond(rval = 0, rbytes = none). -/
def Response.done : Response := Response.scalar 0

/-- respond(rval = 0, rbytes = bs, rcount = the number of bytes) (R115). -/
def Response.sequence (bs : List Byte) : Response :=
  { status := .ok, rval := 0, rbyte := .ofList bs, rcount := BitVec.ofNat 4 bs.length }

/-- The response of an error: its status, and everything else 0 (R12, R145). -/
def Response.error (st : Status) : Response := { status := st, rval := 0, rbyte := .zero, rcount := 0 }

end Sys2Proof.Machine
end

