-- ==== Sys2Proof/Machine/Memory.lean ====
section
/-! DEFINITION. The host's byte buffers as canonical lists of cells (20_memory.md R40): reading, writing, and the canonical form. -/

namespace Sys2Proof.Machine

/-- The byte at an index; an unlisted index reads `Config.unlistedByte` (log 6). -/
def Memory.read : Memory → Nat → Byte
  | [], _ => Config.unlistedByte
  | (k, b) :: m, a => if k = a then b else Memory.read m a

/-- Writes one byte and keeps the canonical form: writing what an unlisted index reads as removes the cell. -/
def Memory.write : Memory → Nat → Byte → Memory
  | [], a, b => if b = Config.unlistedByte then [] else [(a, b)]
  | (k, c) :: m, a, b =>
    if a < k then (if b = Config.unlistedByte then (k, c) :: m else (a, b) :: (k, c) :: m)
    else if a = k then (if b = Config.unlistedByte then m else (a, b) :: m)
    else (k, c) :: Memory.write m a b

/-- The canonical form: indices strictly rising and below `Config.bufferLimit`, no cell equal to what an unlisted index reads as. -/
def Memory.wf : Memory → Bool
  | [] => true
  | (k, b) :: m =>
    decide (k < Config.bufferLimit) && decide (b ≠ Config.unlistedByte) && m.all (fun c => decide (k < c.1)) && Memory.wf m

end Sys2Proof.Machine
end

