-- ==== Sys2Proof/Machine/Ops.lean ====
section
/-! DEFINITION. The operations the commands share: responding and raising (R12), the two gates of R72, the SHIFT ROM (R24), the byte
function (R95), the buffer primitives (R11), and the walks over N bytes (R92, R130, R131). -/

namespace Sys2Proof.Machine

/-- Ends a command with status OK: the state `s` with all its writes, and the response (R12, R49). -/
def respond (s : State) (r : Response) : Result := .next (s.withResp (some r))

/-- TAKING AN ERROR, the block's only exception (R12, R145, R148): the response carries the status; no register, ROM or buffer
changes, no state is saved and control goes nowhere. There is no return from it (R149). -/
def raise (s : State) (st : Status) : Result := .next (s.withResp (some (.error st)))

/-- The gate of a command that reads VIEW (R72, R142). -/
def readingView (s : State) (k : View → Result) : Result :=
  if s.view.valid then k s.view else raise s .uninitialized

/-- The gate of a command that reads ENUM (R72, R142). -/
def readingEnum (s : State) (k : Enumerator → Result) : Result :=
  if s.enum.valid then k s.enum else raise s .uninitialized

/-- Goes on with the value of a shared operation, or stops with its fault. -/
def proceed {α : Type} (x : Except Fault α) (k : α → Result) : Result :=
  match x with
  | .ok a => k a
  | .error f => .fault f

/-- The entry SHIFT[wc][fmt][i] of the ROM, a 6-bit shift amount (R24, R81); a `-` cell has no value (R25). -/
def romEntry (w : Width) (f : Format) (i : Nat) : Except Fault (BitVec 6) :=
  if i < bytes w then
    match f with
    | .big => .ok (BitVec.ofNat 6 ((bytes w - 1 - i) * 8))
    | .little => .ok (BitVec.ofNat 6 (i * 8))
  else .error .romCell

/-- byteAt(view, i) of R95: ((value >> shift) & 0xFF)[7:0]. -/
def byteAt (v : View) (i : Nat) : Except Fault Byte := do
  let sh ← romEntry v.wc v.fmt i
  pure (((v.value >>> sh.toNat) &&& 0xFF#64).extractLsb' 0 8)

/-- bytesOf(view) of R95: byteAt(view, 0), ..., byteAt(view, N-1). -/
def bytesOf (v : View) : Except Fault (List Byte) := (List.range (bytes v.wc)).mapM (byteAt v)

/-- The byte lane k of an enumerator (R21, R113). -/
def laneAt (l : Lanes) (k : Nat) : Except Fault Byte :=
  match l.toList[k]? with
  | some b => .ok b
  | none => .error .noSuchLane

/-- MemRead(SRC, i, 1) of R11, for 0 <= i < LEN. -/
def memRead (len : Nat) (m : Memory) (i : Nat) : Except Fault Byte :=
  if i < len then .ok (m.read i) else .error .outsideBuffer

/-- MemWrite(DST, i, 1, b) of R11, for 0 <= i < LEN. -/
def memWrite (len : Nat) (m : Memory) (i : Int) (b : Byte) : Except Fault Memory :=
  if 0 ≤ i ∧ i < len then .ok (m.write i.toNat b) else .error .outsideBuffer

/-- One turn of LDB's loop (R92): acc | (zext_64(MemRead(SRC, i, 1)) << shift(WC, F, i)). -/
def loadByte (w : Width) (f : Format) (len : Nat) (src : Memory) (acc : Word64) (i : Nat) : Except Fault Word64 := do
  let b ← memRead len src i
  let sh ← romEntry w f i
  pure (acc ||| (b.setWidth 64 <<< sh.toNat))

/-- LDB's accumulator (R92): the loop over i = 0 .. N-1 from 0. -/
def loadAll (w : Width) (f : Format) (len : Nat) (src : Memory) : Except Fault Word64 :=
  (List.range (bytes w)).foldlM (loadByte w f len src) 0

/-- One write into DST: the index, and the byte. -/
abbrev Write := Int × Byte

/-- The writes of COPY's loop (R130): byteAt(VIEW, k) at ds + k, k = 0 .. N-1. -/
def copyWrites (v : View) (ds : Int) : Except Fault (List Write) :=
  (List.range (bytes v.wc)).mapM fun (k : Nat) => do
    let b ← byteAt v k
    pure (ds + (k : Int), b)

/-- The writes of COPYR's loop (R131) over the byte indices given: index i is written when i >= ss and rem > 0, and each write takes
one from rem. -/
def rangeWritesFrom (v : View) (ss ds : Int) : List Nat → Int → Except Fault (List Write)
  | [], _ => .ok []
  | i :: is, rem =>
    if ss ≤ i ∧ 0 < rem then do
      let b ← byteAt v i
      let ws ← rangeWritesFrom v ss ds is (rem - 1)
      pure ((ds + (i - ss), b) :: ws)
    else rangeWritesFrom v ss ds is rem

/-- The writes of COPYR (R131): the loop over i = 0 .. N-1, with rem = cnt. -/
def rangeWrites (v : View) (ss ds cnt : Int) : Except Fault (List Write) :=
  rangeWritesFrom v ss ds (List.range (bytes v.wc)) cnt

/-- Makes the writes, in order, each within [0, LEN) (R11, R42). -/
def writeAll (len : Nat) (ws : List Write) (m : Memory) : Except Fault Memory :=
  ws.foldlM (fun m w => memWrite len m w.1 w.2) m

/-- The two checks of COPY (R130, C5), on exact integers (R13). -/
def copyFits (n : Nat) (ds : Int) (len : Nat) : Bool := decide (0 ≤ ds) && decide (ds + n ≤ len)

/-- The four checks of COPYR, in the order of R131, on exact integers (R13). -/
def rangeFits (n : Nat) (ss ds cnt : Int) (len : Nat) : Bool :=
  decide (0 ≤ ss) && decide (0 ≤ ds) && decide (ss + cnt ≤ n) && decide (ds + cnt ≤ len)

end Sys2Proof.Machine
end

