-- ==== Sys2Proof/Machine/BufferCopy.lean ====
section
/-! DEFINITION. The buffer copies (43_buffer_copy.md). What each would write is a function of its own, because a reset during the
command (R162) needs it too. -/

namespace Sys2Proof.Machine

/-- What COPY does once VIEW has been read (R130): its writes, or none where a check fails. -/
def copyPlan (s : State) (v : View) : Except Fault (Option (List Write)) :=
  if copyFits (bytes v.wc) (copyDestStart s) (lengthOperand s) then (copyWrites v (copyDestStart s)).map some else .ok none

/-- What COPYR does once VIEW has been read (R131). -/
def rangePlan (s : State) (v : View) : Except Fault (Option (List Write)) :=
  if rangeFits (bytes v.wc) (rangeSourceStart s) (rangeDestStart s) (rangeCount s) (lengthOperand s) then
    (rangeWrites v (rangeSourceStart s) (rangeDestStart s) (rangeCount s)).map some
  else .ok none

/-- Makes the writes of a plan and responds, or raises IndexOutOfRange with nothing written (R42, R145). -/
def carryOut (s : State) (plan : Except Fault (Option (List Write))) : Result :=
  proceed plan fun p =>
    match p with
    | none => raise s .indexOutOfRange
    | some ws => proceed (writeAll (lengthOperand s) ws s.dst) fun m => respond (s.withDst m) .done

/-- COPY (R130): all N bytes of the view into DST from destinationStart on. -/
def execCopy (s : State) : Result := readingView s fun v => carryOut s (copyPlan s v)

/-- COPYR (R131): count bytes of the view, from sourceStart on, into DST from destinationStart on. -/
def execCopyr (s : State) : Result := readingView s fun v => carryOut s (rangePlan s v)

end Sys2Proof.Machine
end

