-- ==== Sys2Proof/Machine/EnumCommands.lean ====
section
/-! DEFINITION. The commands of the enumerator and the bulk conversions (42_enumerator.md). -/

namespace Sys2Proof.Machine

/-- ENUM (R110): a snapshot of the view's bytes, cursor BEFORE. -/
def execEnum (s : State) : Result :=
  readingView s fun v =>
    proceed (bytesOf v) fun bs =>
      respond (s.withEnum { valid := true, n := arityOf v.wc, e := .ofList bs, cur := -1 }) .done

/-- ADV (R111): the cursor moves to min(c + 1, n); rval is 1 while it has not reached END. -/
def execAdv (s : State) : Result :=
  readingEnum s fun en =>
    let n : Int := en.n.toNat
    let c2 := min (en.cur + 1) n
    respond (s.withEnum { en with cur := c2 }) (.scalar (if c2 < n then 1 else 0))

/-- RST (R112): the cursor returns to BEFORE. -/
def execRst (s : State) : Result :=
  readingEnum s fun en => respond (s.withEnum { en with cur := -1 }) .done

/-- CUR (R113): the byte at the cursor; InvalidState at BEFORE and at END. -/
def execCur (s : State) : Result :=
  readingEnum s fun en =>
    if en.cur < 0 ∨ (en.n.toNat : Int) ≤ en.cur then raise s .invalidState
    else proceed (laneAt en.e en.cur.toNat) fun b => respond s (.scalar (b.setWidth 64))

/-- TOARR (R115): all N bytes of the view. -/
def execToarr (s : State) : Result :=
  readingView s fun v => proceed (bytesOf v) fun bs => respond s (.sequence bs)

/-- TOLIST (R116): the same result as TOARR in every field. -/
def execTolist (s : State) : Result :=
  readingView s fun v => proceed (bytesOf v) fun bs => respond s (.sequence bs)

end Sys2Proof.Machine
end

