-- ==== Sys2Proof/Machine/ShiftTable.lean ====
section
/-! DEFINITION. The shift-table lookup (40_shift_table.md). -/

namespace Sys2Proof.Machine

/-- SHIFT (R80): the entry as rval, zero-extended; IndexOutOfRange when I0 is outside [0, N). Reads neither VIEW nor ENUM (R72). -/
def execShift (w : Width) (f : Format) (s : State) : Result :=
  let i := indexOperand s
  if i < 0 ∨ (bytes w : Int) ≤ i then raise s .indexOutOfRange
  else proceed (romEntry w f i.toNat) fun sh => respond s (.scalar (sh.setWidth 64))

end Sys2Proof.Machine
end

