-- ==== Sys2Proof/Machine/ViewCommands.lean ====
section
/-! DEFINITION. The commands of the view (41_view.md): construct, byte, count, value. -/

namespace Sys2Proof.Machine

/-- LDV at either value of the parameter `strict48` (R90, R91): VIEW takes the canonical value of A. With `strict` true, a 48-bit A
that is not canonical is refused. -/
def ldvWith (strict : Bool) (w : Width) (f : Format) (g : Signedness) (s : State) : Result :=
  let a := valueOperand s
  if strict = true ∧ w = .w48 ∧ a ≠ canon w g a then .refused .strict48NonCanonical
  else respond (s.withView { valid := true, wc := w, s := g, fmt := f, value := canon w g a }) .done

/-- LDV (R90), at the machine's value of `strict48` (R91, log 8). -/
def execLdv (w : Width) (f : Format) (g : Signedness) (s : State) : Result := ldvWith Config.strict48 w f g s

/-- LDB (R92, R93): VIEW takes the canonical value of the N bytes of SRC; InvalidBufferLength, and no byte read, when LEN != N. -/
def execLdb (w : Width) (f : Format) (g : Signedness) (s : State) : Result :=
  let len := lengthOperand s
  if len ≠ bytes w then raise s .invalidBufferLength
  else proceed (loadAll w f len s.src) fun acc =>
    respond (s.withView { valid := true, wc := w, s := g, fmt := f, value := canon w g acc }) .done

/-- BYTE (R94): byte I0 of the view as rval; IndexOutOfRange when I0 is outside [0, N). -/
def execByte (s : State) : Result :=
  readingView s fun v =>
    let i := indexOperand s
    if i < 0 ∨ (bytes v.wc : Int) ≤ i then raise s .indexOutOfRange
    else proceed (byteAt v i.toNat) fun b => respond s (.scalar (b.setWidth 64))

/-- COUNT (R96): N of the view. -/
def execCount (s : State) : Result :=
  readingView s fun v => respond s (.scalar (BitVec.ofNat 64 (bytes v.wc)))

/-- GETV (R97): the canonical value of the view. -/
def execGetv (s : State) : Result :=
  readingView s fun v => respond s (.scalar v.value)

end Sys2Proof.Machine
end

