-- ==== Sys2Proof/Machine/Dispatch.lean ====
section
/-! DEFINITION. One arm per command (R68, R72): the meaning of each, in a file of its own family. -/

namespace Sys2Proof.Machine

def exec (i : Instr) (s : State) : Host.Outcome State Fault Refusal :=
  match i with
  | .shift w f => Sys2Proof.Machine.execShift w f s
  | .ldv w f g => Sys2Proof.Machine.execLdv w f g s
  | .ldb w f g => Sys2Proof.Machine.execLdb w f g s
  | .byte => Sys2Proof.Machine.execByte s
  | .count => Sys2Proof.Machine.execCount s
  | .getv => Sys2Proof.Machine.execGetv s
  | .enum => Sys2Proof.Machine.execEnum s
  | .adv => Sys2Proof.Machine.execAdv s
  | .rst => Sys2Proof.Machine.execRst s
  | .cur => Sys2Proof.Machine.execCur s
  | .toarr => Sys2Proof.Machine.execToarr s
  | .tolist => Sys2Proof.Machine.execTolist s
  | .copy => Sys2Proof.Machine.execCopy s
  | .copyr => Sys2Proof.Machine.execCopyr s

end Sys2Proof.Machine
end

