-- ==== Sys2Proof/Machine/HostEvents.lean ====
section
/-! DEFINITION. What the block does with each thing the host does: a command (R72), a buffer access between commands (R49), reset
(R160, R162), and a broken duty (R164 to R166). -/

namespace Sys2Proof.Machine

/-- The step of R72 for one command: the operands are on the ports; an illegal word raises IllegalCommand before anything is read
(R143, R144); a legal one is performed. -/
def runCommand (c : Command) (s : State) : Result :=
  match decode c.word with
  | .error _ => raise (s.withPorts c.ports) .illegalCommand
  | .ok i => exec i (s.withPorts c.ports)

/-- With nothing presented the block idles, and idling changes no state (R156, R161); no command completed, so there is no response. -/
def idle (s : State) : Result := .next (s.withResp none)

/-- Reset (R160): VIEW and ENUM at their reset values. The buffers and the ports are the host's and stay (log 5). -/
def resetBlock (s : State) : State := ((s.withView .reset).withEnum .reset).withResp none

/-- The DST writes a command would have made, had it completed (R162): those of a COPY or COPYR that passes its checks, and none for
any other command or error. -/
def writesInFlight (c : Command) (s : State) : List Write :=
  let plan : Except Fault (Option (List Write)) :=
    match decode c.word with
    | .ok .copy => if s.view.valid then copyPlan (s.withPorts c.ports) s.view else .ok none
    | .ok .copyr => if s.view.valid then rangePlan (s.withPorts c.ports) s.view else .ok none
    | _ => .ok none
  match plan with
  | .ok (some ws) => ws
  | _ => []

/-- Each byte the command would have written is its old or its new value, by the free choice number k (R162, S2). -/
def tearWrites (k : Nat) (ws : List Write) (m : Memory) : Memory :=
  ws.foldl (fun m w => if Config.tornByteIsNew k w.1.toNat then m.write w.1.toNat w.2 else m) m

/-- Reset while a command is in progress (R162): no response, the registers at their reset values, and DST torn. -/
def resetDuring (c : Command) (s : State) : Result :=
  .next (((resetBlock (s.withPorts c.ports)).withDst (tearWrites s.choice (writesInFlight c s) s.dst)).withChoice (s.choice + 1))

/-- The command reads LEN: LDB, COPY or COPYR (R66). -/
def readsLen (c : Command) : Bool :=
  match decode c.word with
  | .ok (.ldb _ _ _) => true
  | .ok .copy => true
  | .ok .copyr => true
  | _ => false

/-- A duty broken while a command is in progress: the run is refused, by name (R164 to R166, S3 to S5; log 10). A LEN that no rule
reads has no effect, so a false one breaks nothing (R66, S8). DESIGN CHOICE, safe, see log 17: a change of any port during the command
refuses the run, of a port the command does not read too, which R66 and R166 leave open. -/
def serveBreach (c : Command) (b : Breach) (s : State) : Result :=
  match b with
  | .secondCommand => .refused .commandWhileBusy
  | .bufferTouched => .refused .bufferTouched
  | .operandsChanged => .refused .operandsChanged
  | .lenNotTrue => if readsLen c then .refused .lenNotTrue else runCommand c s

/-- One host event. -/
def serve (e : HostEvent) (s : State) : Result :=
  match e with
  | .command c => runCommand c s
  | .writeSrc i b => .next ((s.withSrc (s.src.write i.val b)).withResp none)
  | .writeDst i b => .next ((s.withDst (s.dst.write i.val b)).withResp none)
  | .reset => .next (resetBlock s)
  | .resetDuring c => resetDuring c s
  | .breach c b => serveBreach c b s

/-- The next thing the host does is taken from the inbox and served; with nothing there the block idles. -/
def stepHost (s : State) : Result :=
  match s.inbox with
  | [] => idle s
  | e :: rest => serve e (s.withInbox rest)

/-- The host presents this word next, with the operand ports as they stand. -/
def presentWord (s : State) (w : Word32) : State := s.withInbox (.command { word := w, ports := s.ports } :: s.inbox)

end Sys2Proof.Machine
end

