-- ==== Sys2Proof/Machine/Step.lean ====
section
/-! DEFINITION. The step of the machine: one host event, which is one command where the event is a command (R72, R168). -/

namespace Sys2Proof.Machine

/-- One step. -/
def step (s : State) : Host.Outcome State Fault Refusal := stepHost s

/-- `s` with the command word `w` presented next (log 12): the block fetches no instruction (R56), the host presents it. The bits
above `nbits` are 0, and a command has 32 (R71). -/
def State.withFetchWord (s : State) (nbits w : Nat) : State := presentWord s (BitVec.ofNat 32 (w % 2 ^ nbits))

end Sys2Proof.Machine
end

