-- ==== Sys2Proof/Machine/Assembler.lean ====
section
/-! DEFINITION. The assembler spelling of the commands (30_encoding.md R73) and the macros (R74), as abstract terms: what a line makes
the host do. They are the host's side; the block sees commands only. -/

namespace Sys2Proof.Machine

/-- One line of R73. Literals are integers (decimal or hexadecimal); a width, a type and a format are their own terms. -/
inductive AsmLine where
  | shift (w : Width) (f : Format) (index : Int)
  | ldv (w : Width) (g : Signedness) (f : Format) (value : Int)
  | ldb (w : Width) (g : Signedness) (f : Format) (src : List Byte)
  | byte (index : Int)
  | count
  | getv
  | enum
  | adv
  | rst
  | cur
  | toarr
  | tolist
  | copy (destinationStart : Int) (len : Nat)
  | copyr (sourceStart destinationStart count : Int) (len : Nat)
  deriving DecidableEq, Repr

/-- The macros of R74. -/
inductive AsmMacro where
  | asx (w : Width) (g : Signedness) (f : Format) (src : List Byte)
  | tobytes (w : Width) (g : Signedness) (f : Format) (value : Int)
  | cptobuf (w : Width) (g : Signedness) (f : Format) (value destinationStart : Int) (len : Nat)
  deriving DecidableEq, Repr

/-- A literal for a 32-bit signed port. -/
def fitsIndex (v : Int) : Bool := decide (-(2 ^ 31) ≤ v) && decide (v < 2 ^ 31)

/-- A literal for the 64-bit port A: a 64-bit word, or a negative literal with a 64-bit two's-complement word. -/
def fitsValue (v : Int) : Bool := decide (-(2 ^ 63) ≤ v) && decide (v < 2 ^ 64)

/-- A length for LEN. -/
def fitsLen (n : Nat) : Bool := decide (n < 2 ^ 32)

/-- A line whose literals fit their ports; R73 gives the others no meaning (log 13). -/
def AsmLine.wellFormed : AsmLine → Bool
  | .shift _ _ i => fitsIndex i
  | .ldv _ _ _ v => fitsValue v
  | .ldb _ _ _ bs => fitsLen bs.length
  | .byte i => fitsIndex i
  | .count => true
  | .getv => true
  | .enum => true
  | .adv => true
  | .rst => true
  | .cur => true
  | .toarr => true
  | .tolist => true
  | .copy ds len => fitsIndex ds && fitsLen len
  | .copyr ss ds cnt len => fitsIndex ss && fitsIndex ds && fitsIndex cnt && fitsLen len

/-- The command a line names (R73). -/
def AsmLine.instr : AsmLine → Instr
  | .shift w f _ => .shift w f
  | .ldv w g f _ => .ldv w f g
  | .ldb w g f _ => .ldb w f g
  | .byte _ => .byte
  | .count => .count
  | .getv => .getv
  | .enum => .enum
  | .adv => .adv
  | .rst => .rst
  | .cur => .cur
  | .toarr => .toarr
  | .tolist => .tolist
  | .copy _ _ => .copy
  | .copyr _ _ _ _ => .copyr

/-- The operands a line gives (R73); a port it does not name is 0 (95_test_vectors.md section 3). -/
def AsmLine.ports : AsmLine → Ports
  | .shift _ _ i => { Ports.idle with i0 := BitVec.ofInt 32 i }
  | .ldv _ _ _ v => { Ports.idle with a := BitVec.ofInt 64 v }
  | .ldb _ _ _ bs => { Ports.idle with len := BitVec.ofNat 32 bs.length }
  | .byte i => { Ports.idle with i0 := BitVec.ofInt 32 i }
  | .count => .idle
  | .getv => .idle
  | .enum => .idle
  | .adv => .idle
  | .rst => .idle
  | .cur => .idle
  | .toarr => .idle
  | .tolist => .idle
  | .copy ds len => { Ports.idle with i0 := BitVec.ofInt 32 ds, len := BitVec.ofNat 32 len }
  | .copyr ss ds cnt len =>
    { Ports.idle with
      i0 := BitVec.ofInt 32 ss, i1 := BitVec.ofInt 32 ds, i2 := BitVec.ofInt 32 cnt, len := BitVec.ofNat 32 len }

/-- The host lays a byte list out in SRC, from index k on. -/
def placeSrc : Nat → List Byte → List HostEvent
  | _, [] => []
  | k, b :: bs => (if h : k < Config.bufferLimit then [.writeSrc ⟨k, h⟩ b] else []) ++ placeSrc (k + 1) bs

/-- What the host does for a line: for LDB it lays out SRC first ("the list is SRC"), then it presents the command (R73). -/
def AsmLine.assemble (l : AsmLine) : List HostEvent :=
  let present := [HostEvent.command { word := encode l.instr, ports := l.ports }]
  match l with
  | .ldb _ _ _ bs => placeSrc 0 bs ++ present
  | _ => present

/-- The expansion of a macro (R74). -/
def AsmMacro.expand : AsmMacro → List AsmLine
  | .asx w g f bs => [.ldb w g f bs, .getv]
  | .tobytes w g f v => [.ldv w g f v, .toarr]
  | .cptobuf w g f v ds len => [.ldv w g f v, .copy ds len]

/-- A program: its lines, one after another. -/
def assembleAll (ls : List AsmLine) : List HostEvent := ls.flatMap AsmLine.assemble

end Sys2Proof.Machine
end

