-- ==== Sys2Proof/Safety.lean ====
section
/-! DEFINITION. What a sound state and a safe step are, in the terms the statements use. -/

namespace Sys2Proof.Machine

/-- The shift amount SHIFT[wc][fmt][i] of R24 as a number: (N-1-i)*8 for Big, i*8 for Little. -/
def shiftAmount (w : Width) (f : Format) (i : Nat) : Nat :=
  match f with
  | .big => (bytes w - 1 - i) * 8
  | .little => i * 8

/-- Byte index i of a view as R43 and R95 say it in words: the bits [s+7:s] of the value, s = SHIFT[wc][fmt][i]. -/
def viewByte (v : View) (i : Nat) : Byte := v.value.extractLsb' (shiftAmount v.wc v.fmt i) 8

/-- The N bytes of a view, in byte index order (R95). -/
def viewBytes (v : View) : List Byte := (List.range (bytes v.wc)).map (viewByte v)

/-- R22: while a view has been constructed, its value is canonical for its width and signedness. -/
abbrev View.Canonical (v : View) : Prop := v.valid = true → v.value = canon v.wc v.s v.value

/-- R21: the cursor is in [-1, n] and e[k] = 0 for k >= n. -/
abbrev Enumerator.InRange (e : Enumerator) : Prop :=
  -1 ≤ e.cur ∧ e.cur ≤ e.n.toNat ∧ ∀ k < 8, e.n.toNat ≤ k → e.e.toList.getD k 0 = 0

/-- R12, R145: an error response carries its status and nothing else; R27: rcount is 0 to 8. -/
abbrev Response.Sound (r : Response) : Prop :=
  r.rcount.toNat ≤ 8 ∧ (r.status ≠ .ok → r = .error r.status)

/-- The invariant of the machine: VIEW canonical (R22), ENUM in range (R21), both buffers in canonical form, the response sound. -/
abbrev State.Inv (s : State) : Prop :=
  s.view.Canonical ∧ s.enum.InRange ∧ s.src.wf = true ∧ s.dst.wf = true ∧ ∀ r ∈ s.resp, r.Sound

/-- A step is safe when it does not stop with a fault: it answers a next state, or refuses a run that the spec refuses. -/
abbrev SafeStep (s : State) : Prop := ∀ f, step s ≠ .fault f

end Sys2Proof.Machine
end

