-- ==== Sys2Proof/Certificates/Slice0/Obligations.lean ====
section
/-! DEFINITION. The statements about the block, from the numbered rules of spec/. A statement writes the whole next state out, so it is
the frame of the command too: what the update does not name is unchanged. -/

open Sys2Proof Sys2Proof.Machine

/-! The words the statements use, written apart from the model's own operations. -/

/-- The command raises `st`: the response carries it, its other fields are 0, and nothing else changes (R12). -/
def Sys2Proof.Spec.failed (s : State) (st : Status) : Result :=
  .next { s with resp := some ⟨st, 0, ⟨0, 0, 0, 0, 0, 0, 0, 0⟩, 0⟩ }

/-- The command answers OK with the scalar `v`, in the state `s` (R12, R27). -/
def Sys2Proof.Spec.answered (s : State) (v : Word64) : Result :=
  .next { s with resp := some ⟨.ok, v, ⟨0, 0, 0, 0, 0, 0, 0, 0⟩, 0⟩ }

/-- Eight lanes: lane k is `f k` for k < n, and 0 from n on (R110, R115). -/
def Sys2Proof.Spec.lanes (f : Nat → Byte) (n : Nat) : Lanes :=
  let e (k : Nat) : Byte := if k < n then f k else 0
  ⟨e 0, e 1, e 2, e 3, e 4, e 5, e 6, e 7⟩

/-- The command answers OK with the n bytes `f 0 .. f (n-1)` (R115). -/
def Sys2Proof.Spec.sequenced (s : State) (f : Nat → Byte) (n : Nat) : Result :=
  .next { s with resp := some ⟨.ok, 0, Spec.lanes f n, BitVec.ofNat 4 n⟩ }

/-- The commands that read VIEW (R72). -/
def Sys2Proof.Spec.viewReaders : List Instr := [.byte, .count, .getv, .enum, .toarr, .tolist, .copy, .copyr]

/-- The commands that read ENUM (R72). -/
def Sys2Proof.Spec.enumReaders : List Instr := [.adv, .rst, .cur]

/-- The 51 legal words of R68, written out. -/
def Sys2Proof.Spec.legalWords : List Nat :=
  [0x01, 0x11, 0x21, 0x31, 0x41, 0x51, 0x61, 0x71] ++
  [0x02, 0x12, 0x22, 0x32, 0x42, 0x52, 0x62, 0x72, 0x82, 0x92, 0xA2, 0xB2, 0xC2, 0xD2, 0xE2, 0xF2] ++
  [0x03, 0x13, 0x23, 0x33, 0x43, 0x53, 0x63, 0x73, 0x83, 0x93, 0xA3, 0xB3, 0xC3, 0xD3, 0xE3, 0xF3] ++
  [0x04, 0x05, 0x06, 0x07, 0x08, 0x09, 0x0A, 0x0B, 0x0C, 0x0D, 0x0E]

/-- The eight words of SHIFT (R80). -/
def Sys2Proof.Spec.shiftWord : Width → Format → Word32
  | .w16, .big => 0x01
  | .w32, .big => 0x11
  | .w48, .big => 0x21
  | .w64, .big => 0x31
  | .w16, .little => 0x41
  | .w32, .little => 0x51
  | .w48, .little => 0x61
  | .w64, .little => 0x71

/-- The number k of a type and a format in the words 0x02 + 0x10*k of LDV and 0x03 + 0x10*k of LDB (R90, R92): WC + 4*F + 8*S. -/
def Sys2Proof.Spec.typeCode (w : Width) (f : Format) (g : Signedness) : Nat :=
  (match w with | .w16 => 0 | .w32 => 1 | .w48 => 2 | .w64 => 3) + (match f with | .big => 0 | .little => 4) +
    (match g with | .unsigned => 0 | .signed => 8)

/-- The rows of R25 up to their first `-` cell. -/
def Sys2Proof.Spec.romRow : Width → Format → List Nat
  | .w16, .big => [8, 0]
  | .w16, .little => [0, 8]
  | .w32, .big => [24, 16, 8, 0]
  | .w32, .little => [0, 8, 16, 24]
  | .w48, .big => [40, 32, 24, 16, 8, 0]
  | .w48, .little => [0, 8, 16, 24, 32, 40]
  | .w64, .big => [56, 48, 40, 32, 24, 16, 8, 0]
  | .w64, .little => [0, 8, 16, 24, 32, 40, 48, 56]

/-- The statuses of its own, and Uninitialized, that a command can raise (R146). -/
def Sys2Proof.Spec.raisable : Instr → List Status
  | .shift _ _ => [.indexOutOfRange]
  | .ldv _ _ _ => []
  | .ldb _ _ _ => [.invalidBufferLength]
  | .byte => [.indexOutOfRange, .uninitialized]
  | .count => [.uninitialized]
  | .getv => [.uninitialized]
  | .enum => [.uninitialized]
  | .adv => [.uninitialized]
  | .rst => [.uninitialized]
  | .cur => [.invalidState, .uninitialized]
  | .toarr => [.uninitialized]
  | .tolist => [.uninitialized]
  | .copy => [.indexOutOfRange, .uninitialized]
  | .copyr => [.indexOutOfRange, .uninitialized]

/-- The two sets of operands agree on every port the command reads (R66). -/
def Sys2Proof.Spec.sameOperands (i : Instr) (p q : Ports) : Prop :=
  match i with
  | .shift _ _ => p.i0 = q.i0
  | .ldv _ _ _ => p.a = q.a
  | .ldb _ _ _ => p.len = q.len
  | .byte => p.i0 = q.i0
  | .copy => p.i0 = q.i0 ∧ p.len = q.len
  | .copyr => p.i0 = q.i0 ∧ p.i1 = q.i1 ∧ p.i2 = q.i2 ∧ p.len = q.len
  | _ => True

/-- The state with its enumerator's cursor at `c`. -/
def Sys2Proof.Spec.atCursor (s : State) (c : Int) : State := { s with enum := { s.enum with cur := c } }

/-- A is the encoding of a representable value of the type (R98, by the ranges of R99). -/
def Sys2Proof.Spec.representable (w : Width) (g : Signedness) (a : Word64) : Prop :=
  match g with
  | .signed => -(2 ^ (bits w - 1)) ≤ a.toInt ∧ a.toInt < 2 ^ (bits w - 1)
  | .unsigned => a.toNat < 2 ^ bits w

/-- The words of LDV (R90). -/
def Sys2Proof.Spec.ldvWord (w : Width) (f : Format) (g : Signedness) : Word32 := BitVec.ofNat 32 (0x02 + 0x10 * Spec.typeCode w f g)

/-- The words of LDB (R92). -/
def Sys2Proof.Spec.ldbWord (w : Width) (f : Format) (g : Signedness) : Word32 := BitVec.ofNat 32 (0x03 + 0x10 * Spec.typeCode w f g)

/-- A literal for a 32-bit port read as two's complement (R73). -/
def Sys2Proof.Spec.fits32 (i : Int) : Prop := -(2 ^ 31) ≤ i ∧ i < 2 ^ 31

/-- A 64-bit literal, or a negative one with a 64-bit two's-complement word (R73). -/
def Sys2Proof.Spec.fits64 (v : Int) : Prop := -(2 ^ 63) ≤ v ∧ v < 2 ^ 64

/-- The word of a 64-bit literal: the number itself, or the two's complement of a negative one (R73). -/
def Sys2Proof.Spec.denotes (x : Word64) (v : Int) : Prop := (0 ≤ v → (x.toNat : Int) = v) ∧ (v < 0 → x.toInt = v)

/-- A command presented with no operands. -/
def Sys2Proof.Spec.bare (word : Word32) : HostEvent := .command ⟨word, { a := 0, i0 := 0, i1 := 0, i2 := 0, len := 0 }⟩

/-- The events write the list into SRC: the k-th of them writes the k-th byte to index k, and there are no others (R73). -/
def Sys2Proof.Spec.laysOut (pre : List HostEvent) (bs : List Byte) : Prop :=
  pre.length = bs.length ∧ ∀ k, ∀ b : Byte, bs[k]? = some b → ∃ h : k < Config.bufferLimit, pre[k]? = some (.writeSrc ⟨k, h⟩ b)

/-- The response answers the scalar `v` with status OK. -/
def Sys2Proof.Spec.gives (t : State) (v : Word64) : Prop :=
  t.resp = some ⟨.ok, v, ⟨0, 0, 0, 0, 0, 0, 0, 0⟩, 0⟩

/-! ### Encoding -/

/-- Words written out from R68 and 95_test_vectors.md section 2.7 decode to what they stand for, and illegal words to nothing. -/
def Obligations.DecodesWrittenOutWords : Prop :=
  decode 0x00000001 = .ok (.shift .w16 .big) ∧ decode 0x00000061 = .ok (.shift .w48 .little) ∧
  decode 0x000000C2 = .ok (.ldv .w16 .little .signed) ∧ decode 0x00000012 = .ok (.ldv .w32 .big .unsigned) ∧
  decode 0x000000A3 = .ok (.ldb .w48 .big .signed) ∧ decode 0x00000073 = .ok (.ldb .w64 .little .unsigned) ∧
  decode 0x00000004 = .ok .byte ∧ decode 0x00000007 = .ok .enum ∧ decode 0x0000000E = .ok .copyr ∧
  decode 0x00000000 = .error .illegalOpcode ∧ decode 0x0000000F = .error .illegalOpcode ∧
  decode 0x00000104 = .error .reservedBits ∧ decode 0x00000014 = .error .unusedFields ∧
  decode 0x00000081 = .error .signedShift

/-- Decode and encode agree in both directions: a word decodes to a command exactly when it is that command's encoding, so no bit of
the word is dropped and each command has one word. -/
def Obligations.DecodeAndEncodeAgree : Prop :=
  ∀ (cmd : Word32) (i : Instr), decode cmd = .ok i ↔ cmd = encode i

/-- R68: each command is decoded from exactly the words its mask and match admit, there are 51 legal words, and every other word is
illegal. -/
def Obligations.LegalWordsAreThoseOfTheOpcodeMap : Prop :=
  (∀ cmd : Word32, (∃ w f, decode cmd = .ok (.shift w f)) ↔ cmd &&& 0xFFFFFF8F#32 = 0x00000001#32) ∧
  (∀ cmd : Word32, (∃ w f g, decode cmd = .ok (.ldv w f g)) ↔ cmd &&& 0xFFFFFF0F#32 = 0x00000002#32) ∧
  (∀ cmd : Word32, (∃ w f g, decode cmd = .ok (.ldb w f g)) ↔ cmd &&& 0xFFFFFF0F#32 = 0x00000003#32) ∧
  (∀ cmd : Word32, decode cmd = .ok .byte ↔ cmd = 0x04#32) ∧ (∀ cmd : Word32, decode cmd = .ok .count ↔ cmd = 0x05#32) ∧
  (∀ cmd : Word32, decode cmd = .ok .getv ↔ cmd = 0x06#32) ∧ (∀ cmd : Word32, decode cmd = .ok .enum ↔ cmd = 0x07#32) ∧
  (∀ cmd : Word32, decode cmd = .ok .adv ↔ cmd = 0x08#32) ∧ (∀ cmd : Word32, decode cmd = .ok .rst ↔ cmd = 0x09#32) ∧
  (∀ cmd : Word32, decode cmd = .ok .cur ↔ cmd = 0x0A#32) ∧ (∀ cmd : Word32, decode cmd = .ok .toarr ↔ cmd = 0x0B#32) ∧
  (∀ cmd : Word32, decode cmd = .ok .tolist ↔ cmd = 0x0C#32) ∧ (∀ cmd : Word32, decode cmd = .ok .copy ↔ cmd = 0x0D#32) ∧
  (∀ cmd : Word32, decode cmd = .ok .copyr ↔ cmd = 0x0E#32) ∧
  (∀ cmd : Word32, (∃ i, decode cmd = .ok i) ↔ cmd.toNat ∈ Spec.legalWords) ∧
  Spec.legalWords.length = 51 ∧ Spec.legalWords.Nodup

/-- R62, R63, R64: where the fields of a legal word stand and what they say: WC is CMD[5:4], F is CMD[6], S is CMD[7], with the
numbering of those rules; a command that does not use a field has it 0. -/
def Obligations.FieldsOfALegalWord : Prop :=
  ∀ (cmd : Word32) (i : Instr), decode cmd = .ok i →
    let wc : Width → BitVec 2 := fun w => match w with | .w16 => 0b00 | .w32 => 0b01 | .w48 => 0b10 | .w64 => 0b11
    (∀ (w : Width) (f : Format), i = .shift w f →
      cmd.extractLsb' 4 2 = wc w ∧ cmd.getLsbD 6 = decide (f = .little) ∧ cmd.getLsbD 7 = false) ∧
    (∀ (w : Width) (f : Format) (g : Signedness), i = .ldv w f g ∨ i = .ldb w f g →
      cmd.extractLsb' 4 2 = wc w ∧ cmd.getLsbD 6 = decide (f = .little) ∧ cmd.getLsbD 7 = decide (g = .signed)) ∧
    ((∀ (w : Width) (f : Format), i ≠ .shift w f) →
      (∀ (w : Width) (f : Format) (g : Signedness), i ≠ .ldv w f g ∧ i ≠ .ldb w f g) →
      cmd.extractLsb' 4 2 = 0 ∧ cmd.getLsbD 6 = false ∧ cmd.getLsbD 7 = false) ∧
    (∀ w : Width, bytes w = 2 * ((wc w).toNat + 1) ∧ bits w = 16 * ((wc w).toNat + 1))

/-- R143: a word with OP 0x0 or 0xF, with an RSV bit set, a SHIFT with S = 1, or an OP in 0x4 .. 0xE with CMD[7:4] not 0, raises
IllegalCommand whatever the state, the operands and the buffers are; a word with none of these is a command. -/
def Obligations.IllegalWordsRaiseIllegalCommand : Prop :=
  ∀ cmd : Word32,
    let op := (cmd.extractLsb' 0 4).toNat
    let illegal := op = 0x0 ∨ op = 0xF ∨ cmd.extractLsb' 8 24 ≠ 0#24 ∨ (op = 0x1 ∧ cmd.getLsbD 7 = true) ∨
      (0x4 ≤ op ∧ op ≤ 0xE ∧ cmd.extractLsb' 4 4 ≠ 0#4)
    (illegal → ∀ (s : State) (p : Ports) (rest : List HostEvent), s.inbox = .command ⟨cmd, p⟩ :: rest →
      step s = Spec.failed { s with inbox := rest, ports := p } .illegalCommand) ∧
    (¬ illegal → ∃ i, decode cmd = .ok i)

/-! ### The step, reset, and the host's side -/

/-- A step runs the decoded command: with a command presented whose word decodes to i, the step is exec of i with the command taken
from the inbox and its operands on the ports; and the word `withFetchWord` presents is run on the state as it stands. -/
def Obligations.StepRunsTheDecodedCommand : Prop :=
  (∀ (s : State) (c : Command) (rest : List HostEvent) (i : Instr), s.inbox = .command c :: rest → decode c.word = .ok i →
    step s = exec i { s with inbox := rest, ports := c.ports }) ∧
  (∀ (s : State) (w : Nat) (i : Instr), w < 2 ^ 32 → decode (BitVec.ofNat 32 w) = .ok i → step (s.withFetchWord 32 w) = exec i s)

/-- R142: the view commands raise Uninitialized when VIEW.valid = 0, and ADV, RST, CUR when ENUM.valid = 0, and nothing changes; with
the register constructed none of them raises it, and SHIFT, LDV and LDB never do; after reset both valid bits are 0. -/
def Obligations.UninitializedExactlyWhenInvalid : Prop :=
  (∀ (s : State) (i : Instr), i ∈ Spec.viewReaders → s.view.valid = false → exec i s = Spec.failed s .uninitialized) ∧
  (∀ (s : State) (i : Instr), i ∈ Spec.enumReaders → s.enum.valid = false → exec i s = Spec.failed s .uninitialized) ∧
  (∀ (s : State) (i : Instr) (t : State) (r : Response), exec i s = .next t → t.resp = some r → r.status = .uninitialized →
    (i ∈ Spec.viewReaders ∧ s.view.valid = false) ∨ (i ∈ Spec.enumReaders ∧ s.enum.valid = false)) ∧
  State.reset.view.valid = false ∧ State.reset.enum.valid = false

/-- With nothing presented, a step changes no register, buffer or port, and gives no response (R156, R161; that the response is
cleared is the model's choice, log 2). -/
def Obligations.IdleStepChangesNoState : Prop :=
  ∀ s : State, s.inbox = [] → ∃ t, step s = .next t ∧ t.resp = none ∧ t.view = s.view ∧ t.enum = s.enum ∧ t.src = s.src ∧
    t.dst = s.dst ∧ t.ports = s.ports ∧ t.inbox = s.inbox ∧ t.choice = s.choice

/-- R160, R33: reset puts every register at the value R33 lists for it, whatever the state was, and the ROM holds the content of R25. That
the host's buffers and ports stay is the model's reading (log 5, from R40), and that the response is cleared its choice (log 2); what buffers
and ports hold after reset is its choice too (logs 4, 6), and not part of this. -/
def Obligations.ResetPutsTheRegistersAtTheirValues : Prop :=
  State.reset.view = { valid := false, wc := .w16, s := .unsigned, fmt := .big, value := 0 } ∧
  State.reset.enum = { valid := false, n := .two, e := ⟨0, 0, 0, 0, 0, 0, 0, 0⟩, cur := -1 } ∧
  (∀ (s : State) (rest : List HostEvent), s.inbox = .reset :: rest →
    step s = .next { s with view := State.reset.view, enum := State.reset.enum, resp := none, inbox := rest }) ∧
  (∀ (w : Width) (f : Format) (i : Nat) (e : BitVec 6), romEntry w f i = .ok e ↔ (Spec.romRow w f)[i]? = some e.toNat)

/-- R33, the column "observable?": while VIEW.valid or ENUM.valid is 0, no command can observe the other fields of that register. Two
states that differ only in such gated fields get the same response and the same DST from every command, and their registers differ
afterwards in gated fields only. -/
def Obligations.GatedFieldsAreNotObservable : Prop :=
  ∀ (i : Instr) (s : State) (v : View) (e : Enumerator), (v = s.view ∨ (v.valid = false ∧ s.view.valid = false)) →
    (e = s.enum ∨ (e.valid = false ∧ s.enum.valid = false)) →
    ∃ t t', exec i s = .next t ∧ exec i { s with view := v, enum := e } = .next t' ∧ t'.resp = t.resp ∧ t'.dst = t.dst ∧
      (t'.view = t.view ∨ (t'.view.valid = false ∧ t.view.valid = false)) ∧
      (t'.enum = t.enum ∨ (t'.enum.valid = false ∧ t.enum.valid = false))

/-- R162: a reset that arrives during a command ends it with no response, puts VIEW and ENUM at their reset values, and leaves each
byte of DST at its old value or at the value the command would have given it; this holds for every free choice. That the run goes on, where
R162 also allows a refusal, is the model's choice (log 9), and that SRC stays is its reading of R40 (log 5). -/
def Obligations.ResetDuringACommandTearsDst : Prop :=
  ∀ (s : State) (c : Command) (rest : List HostEvent), s.inbox = .resetDuring c :: rest → s.dst.wf = true →
    ∃ t, step s = .next t ∧ t.resp = none ∧ t.view = State.reset.view ∧ t.enum = State.reset.enum ∧ t.src = s.src ∧
      ∀ a, t.dst.read a = s.dst.read a ∨
        ∃ t', step { s with inbox := .command c :: rest } = .next t' ∧ t.dst.read a = t'.dst.read a

/-- A run in which the host breaks a duty of R164 to R166 during a command is refused; a false LEN is one only where the command
reads LEN, and elsewhere the command runs as if it were true (log 10). That a change of a port the command does not read refuses the run too
is the model's choice (log 17). -/
def Obligations.BrokenHostDutiesAreRefused : Prop :=
  ∀ (s : State) (c : Command) (b : Breach) (rest : List HostEvent), s.inbox = .breach c b :: rest →
    (b = .secondCommand → step s = .refused .commandWhileBusy) ∧
    (b = .bufferTouched → step s = .refused .bufferTouched) ∧
    (b = .operandsChanged → step s = .refused .operandsChanged) ∧
    (b = .lenNotTrue → (∃ w f g, decode c.word = .ok (.ldb w f g)) ∨ decode c.word = .ok .copy ∨ decode c.word = .ok .copyr →
      step s = .refused .lenNotTrue) ∧
    (b = .lenNotTrue → ¬ ((∃ w f g, decode c.word = .ok (.ldb w f g)) ∨ decode c.word = .ok .copy ∨ decode c.word = .ok .copyr) →
      step s = step { s with inbox := .command c :: rest })

/-- A byte the host writes into a buffer between commands is the only byte that changes, and the block's registers stay (R40, R51). -/
def Obligations.HostWritesOneByte : Prop :=
  (∀ (s : State) (i : Fin Config.bufferLimit) (b : Byte) (rest : List HostEvent), s.inbox = .writeSrc i b :: rest → s.src.wf = true →
    ∃ m : Memory, step s = .next { s with src := m, resp := none, inbox := rest } ∧
      ∀ a, m.read a = if a = i.val then b else s.src.read a) ∧
  (∀ (s : State) (i : Fin Config.bufferLimit) (b : Byte) (rest : List HostEvent), s.inbox = .writeDst i b :: rest → s.dst.wf = true →
    ∃ m : Memory, step s = .next { s with dst := m, resp := none, inbox := rest } ∧
      ∀ a, m.read a = if a = i.val then b else s.dst.read a)

/-- R161: from every state whose VIEW and ENUM are not constructed (as after reset), SHIFT with an index of its table, LDV, and LDB
with LEN = N succeed, and every other command raises Uninitialized. -/
def Obligations.FirstCommandsThatSucceed : Prop :=
  ∀ s : State, s.view.valid = false → s.enum.valid = false →
    (∀ (w : Width) (f : Format), 0 ≤ s.ports.i0.toInt → s.ports.i0.toInt < (bytes w : Int) →
      ∃ t r, exec (.shift w f) s = .next t ∧ t.resp = some r ∧ r.status = .ok) ∧
    (∀ (w : Width) (f : Format) (g : Signedness),
      ∃ t r, exec (.ldv w f g) s = .next t ∧ t.resp = some r ∧ r.status = .ok ∧ t.view.valid = true) ∧
    (∀ (w : Width) (f : Format) (g : Signedness), s.ports.len.toNat = bytes w →
      ∃ t r, exec (.ldb w f g) s = .next t ∧ t.resp = some r ∧ r.status = .ok ∧ t.view.valid = true) ∧
    (∀ i : Instr, i ∈ Spec.viewReaders ++ Spec.enumReaders → exec i s = Spec.failed s .uninitialized)

/-! ### The shift table -/

/-- R24, R25: every cell of the ROM that exists holds the amount of the construction formula, a `-` cell has no value, and the
table written out in R25 is this table. -/
def Obligations.RomHoldsTheShiftTable : Prop :=
  (∀ (w : Width) (i : Nat), i < bytes w → ∃ e, romEntry w .big i = .ok e ∧ e.toNat = (bytes w - 1 - i) * 8 ∧ e.toNat ≤ 56) ∧
  (∀ (w : Width) (i : Nat), i < bytes w → ∃ e, romEntry w .little i = .ok e ∧ e.toNat = i * 8 ∧ e.toNat ≤ 56) ∧
  (∀ (w : Width) (f : Format) (i : Nat), bytes w ≤ i → ∀ e : BitVec 6, romEntry w f i ≠ .ok e) ∧
  (∀ (w : Width) (f : Format), (Spec.romRow w f).length = bytes w) ∧
  (∀ (w : Width) (f : Format) (i : Nat) (e : BitVec 6), romEntry w f i = .ok e → (Spec.romRow w f)[i]? = some e.toNat)

/-- R26: the N entries of a row are a permutation of 0, 8, .., 8(N-1), the two formats mirror each other, and the N byte positions cover
the bits [8N-1:0] exactly once. -/
def Obligations.RomRowsCoverEachBitOnce : Prop :=
  (∀ (w : Width) (f : Format), ∃ l : List (BitVec 6), (List.range (bytes w)).mapM (romEntry w f) = .ok l ∧
    (l.map BitVec.toNat).Perm ((List.range (bytes w)).map (· * 8))) ∧
  (∀ (w : Width) (i : Nat), i < bytes w → romEntry w .little i = romEntry w .big (bytes w - 1 - i)) ∧
  (∀ (w : Width) (f : Format) (b : Nat), b < 8 * bytes w → ∃! i, i < bytes w ∧ ∃ e, romEntry w f i = .ok e ∧ e.toNat ≤ b ∧ b < e.toNat + 8)

/-- SHIFT (R80): with an index in [0, N) it answers the shift amount and changes nothing else, with any other it raises
IndexOutOfRange, from every state; and its words are the eight of R80. -/
def Obligations.ShiftAnswersTheAmount : Prop :=
  (∀ (w : Width) (f : Format) (s : State) (i : Nat), s.ports.i0.toInt = ((i : Nat) : Int) → i < bytes w →
    exec (.shift w f) s = Spec.answered s (BitVec.ofNat 64 (match f with | .big => (bytes w - 1 - i) * 8 | .little => i * 8))) ∧
  (∀ (w : Width) (f : Format) (s : State), s.ports.i0.toInt < 0 ∨ (bytes w : Int) ≤ s.ports.i0.toInt →
    exec (.shift w f) s = Spec.failed s .indexOutOfRange) ∧
  (∀ (cmd : Word32) (w : Width) (f : Format), decode cmd = .ok (.shift w f) ↔ cmd = Spec.shiftWord w f)

/-! ### The view -/

/-- LDV (R90): from every state, VIEW is replaced whole by the canonical value of A, the response is OK, and nothing else changes; its
words are 0x02 + 0x10*k. The canonical value is said by its bits: A's below W, then bit W-1 of A (signed) or 0 (unsigned). -/
def Obligations.LdvLoadsTheCanonicalValue : Prop :=
  (∀ (w : Width) (f : Format) (g : Signedness) (s : State), ∃ v : Word64,
    exec (.ldv w f g) s = Spec.answered { s with view := { valid := true, wc := w, s := g, fmt := f, value := v } } 0 ∧
    ∀ b < 64, v.getLsbD b = if b < bits w then s.ports.a.getLsbD b else (decide (g = .signed) && s.ports.a.getLsbD (bits w - 1))) ∧
  (∀ (cmd : Word32) (w : Width) (f : Format) (g : Signedness),
    decode cmd = .ok (.ldv w f g) ↔ cmd.toNat = 0x02 + 0x10 * Spec.typeCode w f g)

/-- R91: with `strict48` true, LDV is refused exactly for a 48-bit type whose A[63:48] is not the zero extension (unsigned) or the sign
extension of bit 47 (signed), and runs as with false otherwise; with false it is never refused. The machine runs with the default. -/
def Obligations.StrictFortyEightRefusesNonCanonical : Prop :=
  (∀ (w : Width) (f : Format) (g : Signedness) (s : State), w = .w48 →
    s.ports.a.extractLsb' 48 16 ≠ (if g = .signed ∧ s.ports.a.getLsbD 47 = true then 0xFFFF#16 else 0x0000#16) →
    ldvWith true w f g s = .refused .strict48NonCanonical) ∧
  (∀ (w : Width) (f : Format) (g : Signedness) (s : State), (w ≠ .w48 ∨
      s.ports.a.extractLsb' 48 16 = (if g = .signed ∧ s.ports.a.getLsbD 47 = true then 0xFFFF#16 else 0x0000#16)) →
    ∃ t, ldvWith true w f g s = .next t ∧ ldvWith false w f g s = .next t) ∧
  (∀ (w : Width) (f : Format) (g : Signedness) (s : State), ∃ t, exec (.ldv w f g) s = .next t ∧ ldvWith false w f g s = .next t)

/-- LDB (R92): with LEN = N, VIEW is replaced whole, byte i of the new view is SRC[i], its bits above W-1 are the sign (signed) or 0
(unsigned), the response is OK and nothing else changes; with any other LEN it raises InvalidBufferLength and nothing changes; its words
are 0x03 + 0x10*k. -/
def Obligations.LdbLoadsTheBytesOfSrc : Prop :=
  (∀ (w : Width) (f : Format) (g : Signedness) (s : State), s.ports.len.toNat = bytes w → ∃ v : Word64,
    exec (.ldb w f g) s = Spec.answered { s with view := { valid := true, wc := w, s := g, fmt := f, value := v } } 0 ∧
    (∀ i < bytes w, v.extractLsb' (match f with | .big => (bytes w - 1 - i) * 8 | .little => i * 8) 8 = s.src.read i) ∧
    ∀ b < 64, bits w ≤ b → v.getLsbD b = (decide (g = .signed) && v.getLsbD (bits w - 1))) ∧
  (∀ (w : Width) (f : Format) (g : Signedness) (s : State), s.ports.len.toNat ≠ bytes w →
    exec (.ldb w f g) s = Spec.failed s .invalidBufferLength) ∧
  (∀ (cmd : Word32) (w : Width) (f : Format) (g : Signedness),
    decode cmd = .ok (.ldb w f g) ↔ cmd.toNat = 0x03 + 0x10 * Spec.typeCode w f g)

/-- R41: LDB reads SRC at 0 .. N-1 only, and not at all when LEN != N: two states whose SRC agree there get the same response and the same
VIEW. -/
def Obligations.LdbReadsOnlyItsBytes : Prop :=
  ∀ w f g s (m : Memory), (s.ports.len.toNat = bytes w → ∀ i < bytes w, m.read i = s.src.read i) →
    ∃ t, exec (.ldb w f g) s = .next t ∧ exec (.ldb w f g) { s with src := m } = .next { t with src := m }

/-- R93: after an LDB of a 48-bit type with LEN = 6, GETV answers bits [63:48] all ones when the type is signed and the top bit of the most
significant byte is set, and all zeros otherwise. -/
def Obligations.FortyEightBitLoadsExtendTheSign : Prop :=
  ∀ (f : Format) (g : Signedness) (s : State), s.ports.len.toNat = 6 →
    ∃ t u r, exec (.ldb .w48 f g) s = .next t ∧ exec .getv t = .next u ∧ u.resp = some r ∧
    r.rval.extractLsb' 48 16 =
      if g = .signed ∧ (s.src.read (match f with | .big => 0 | .little => 5)).getLsbD 7 = true then 0xFFFF#16 else 0x0000#16

/-- BYTE (R94): byte I0 of the view, the bits [s+7:s] of the value; IndexOutOfRange outside [0, N); Uninitialized without a view;
nothing else changes; its word is 0x04. -/
def Obligations.ByteAnswersOneByte : Prop :=
  (∀ (s : State) (i : Nat), s.view.valid = true → s.ports.i0.toInt = ((i : Nat) : Int) → i < bytes s.view.wc →
    exec .byte s = Spec.answered s ((s.view.value.extractLsb'
      (match s.view.fmt with | .big => (bytes s.view.wc - 1 - i) * 8 | .little => i * 8) 8).setWidth 64)) ∧
  (∀ s : State, s.view.valid = true → s.ports.i0.toInt < 0 ∨ (bytes s.view.wc : Int) ≤ s.ports.i0.toInt →
    exec .byte s = Spec.failed s .indexOutOfRange) ∧
  (∀ s : State, s.view.valid = false → exec .byte s = Spec.failed s .uninitialized) ∧
  (∀ cmd : Word32, decode cmd = .ok .byte ↔ cmd = 0x00000004#32)

/-- COUNT (R96): 2, 4, 6 or 8 by the width alone; nothing else changes; its word is 0x05. -/
def Obligations.CountAnswersTheByteCount : Prop :=
  (∀ s : State, s.view.valid = true →
    exec .count s = Spec.answered s (match s.view.wc with | .w16 => 2 | .w32 => 4 | .w48 => 6 | .w64 => 8)) ∧
  (∀ s : State, s.view.valid = false → exec .count s = Spec.failed s .uninitialized) ∧
  (∀ cmd : Word32, decode cmd = .ok .count ↔ cmd = 0x00000005#32)

/-- GETV (R97): VIEW.value; for a canonical signed view the integer is that of its low W bits read as two's complement, and for an
unsigned one the number of its low W bits; nothing else changes; its word is 0x06. -/
def Obligations.GetvAnswersTheValue : Prop :=
  (∀ s : State, s.view.valid = true → exec .getv s = Spec.answered s s.view.value) ∧
  (∀ s : State, s.view.valid = true → s.view.Canonical →
    (s.view.s = .signed → s.view.value.toInt = (s.view.value.extractLsb' 0 (bits s.view.wc)).toInt) ∧
    (s.view.s = .unsigned → s.view.value.toNat = (s.view.value.extractLsb' 0 (bits s.view.wc)).toNat)) ∧
  (∀ s : State, s.view.valid = false → exec .getv s = Spec.failed s .uninitialized) ∧
  (∀ cmd : Word32, decode cmd = .ok .getv ↔ cmd = 0x00000006#32)

/-- R44: the bytes TOARR answers are the standard layout of the low W bits: in Big the number they write in base 256 with the first
byte most significant, in Little with the first byte least significant; and for the 48-bit width they are bytes 2..7 (Big) or 0..5
(Little) of the 8-byte layout of the 64-bit backing word. -/
def Obligations.BytesAreTheStandardLayout : Prop :=
  (∀ (s t : State) (r : Response), s.view.valid = true → exec .toarr s = .next t → t.resp = some r →
    (s.view.fmt = .big →
      (r.rbyte.toList.take (bytes s.view.wc)).foldl (fun n b => n * 256 + b.toNat) 0 = s.view.value.toNat % 2 ^ bits s.view.wc) ∧
    (s.view.fmt = .little →
      (r.rbyte.toList.take (bytes s.view.wc)).foldr (fun b n => n * 256 + b.toNat) 0 = s.view.value.toNat % 2 ^ bits s.view.wc)) ∧
  (∀ (s t : State) (r : Response) (t' : State) (r' : Response),
    s.view.valid = true → s.view.wc = .w48 → exec .toarr s = .next t → t.resp = some r →
    exec .toarr { s with view := { s.view with wc := .w64 } } = .next t' → t'.resp = some r' →
    r.rbyte.toList.take 6 =
      match s.view.fmt with | .big => (r'.rbyte.toList.drop 2).take 6 | .little => r'.rbyte.toList.take 6)

/-- The bytes of a view do not depend on signedness: the sign-extension bits never appear in a byte (R82, R94). -/
def Obligations.BytesDoNotDependOnSignedness : Prop :=
  ∀ (w : Width) (f : Format) (s t t' u u' : State), exec (.ldv w f .signed) s = .next t → exec (.ldv w f .unsigned) s = .next t' →
    exec .toarr t = .next u → exec .toarr t' = .next u' → u.resp = u'.resp

/-- From R90, R97 and R99: for every type and every integer of the range R99 gives it, LDV of the integer's encoding and then GETV answers
that integer, read as two's complement for a signed type and as a number for an unsigned one, in the canonical word of R99. -/
def Obligations.RepresentableValuesAreKept : Prop :=
  (∀ (w : Width) (f : Format) (s : State) (v : Int), -(2 ^ (bits w - 1)) ≤ v → v < 2 ^ (bits w - 1) →
    ∃ t u r, exec (.ldv w f .signed) { s with ports := { s.ports with a := BitVec.ofInt 64 v } } = .next t ∧
      exec .getv t = .next u ∧ u.resp = some r ∧ r.rval.toInt = v ∧ r.rval = (BitVec.ofInt (bits w) v).signExtend 64) ∧
  (∀ (w : Width) (f : Format) (s : State) (v : Int), 0 ≤ v → v < 2 ^ bits w →
    ∃ t u r, exec (.ldv w f .unsigned) { s with ports := { s.ports with a := BitVec.ofInt 64 v } } = .next t ∧
      exec .getv t = .next u ∧ u.resp = some r ∧ (r.rval.toNat : Int) = v ∧ r.rval = (BitVec.ofInt (bits w) v).setWidth 64)

/-- R98, the round-trip law in both directions: for every width, format, signedness and A, the bytes TOARR answers after LDV, laid in SRC
and loaded with LDB, make GETV answer canon(A), which is A itself when A encodes a representable value of the type (R99); and the bytes LDB
loads are the bytes TOARR answers. -/
def Obligations.RoundTripLaw : Prop :=
  (∀ (w : Width) (f : Format) (g : Signedness) (s : State),
    ∃ t1 t2 r, exec (.ldv w f g) s = .next t1 ∧ exec .toarr t1 = .next t2 ∧ t2.resp = some r ∧ r.status = .ok ∧
    r.rcount.toNat = bytes w ∧
    ∀ (m : Memory) (p : Ports), (∀ k < bytes w, m.read k = r.rbyte.toList.getD k 0) → p.len.toNat = bytes w →
      ∃ t3 t4, exec (.ldb w f g) { t2 with src := m, ports := p } = .next t3 ∧ exec .getv t3 = .next t4 ∧
        Spec.gives t4 (canon w g s.ports.a) ∧ (Spec.representable w g s.ports.a → Spec.gives t4 s.ports.a)) ∧
  (∀ (w : Width) (f : Format) (g : Signedness) (s : State), s.ports.len.toNat = bytes w →
    ∃ t1 t2, exec (.ldb w f g) s = .next t1 ∧ exec .toarr t1 = .next t2 ∧
    t2.resp = some ⟨.ok, 0, Spec.lanes (fun i => s.src.read i) (bytes w), BitVec.ofNat 4 (bytes w)⟩)

/-! ### The enumerator -/

/-- ENUM (R110): the enumerator is replaced whole by a snapshot of the view, cursor BEFORE; nothing else changes; a later load
does not change the snapshot; its word is 0x07. -/
def Obligations.EnumTakesASnapshot : Prop :=
  (∀ s : State, s.view.valid = true → ∃ n : Arity, n.toNat = bytes s.view.wc ∧
    exec .enum s = Spec.answered
      { s with enum := { valid := true, n := n, e := Spec.lanes (viewByte s.view) (bytes s.view.wc), cur := -1 } } 0) ∧
  (∀ (w : Width) (f : Format) (g : Signedness) (s t : State),
    exec (.ldv w f g) s = .next t ∨ exec (.ldb w f g) s = .next t → t.enum = s.enum) ∧
  (∀ s : State, s.view.valid = false → exec .enum s = Spec.failed s .uninitialized) ∧
  (∀ cmd : Word32, decode cmd = .ok .enum ↔ cmd = 0x00000007#32)

/-- ADV (R111): the cursor moves to min(c + 1, n), rval says whether it is below n; nothing else changes; its word is 0x08. -/
def Obligations.AdvMovesTheCursor : Prop :=
  (∀ s : State, s.enum.valid = true → s.enum.cur + 1 < s.enum.n.toNat →
    exec .adv s = Spec.answered { s with enum := { s.enum with cur := s.enum.cur + 1 } } 1) ∧
  (∀ s : State, s.enum.valid = true → (s.enum.n.toNat : Int) ≤ s.enum.cur + 1 →
    exec .adv s = Spec.answered { s with enum := { s.enum with cur := s.enum.n.toNat } } 0) ∧
  (∀ s : State, s.enum.valid = false → exec .adv s = Spec.failed s .uninitialized) ∧
  (∀ cmd : Word32, decode cmd = .ok .adv ↔ cmd = 0x00000008#32)

/-- RST (R112): the cursor returns to BEFORE from every position; nothing else changes; its word is 0x09. -/
def Obligations.RstReturnsToBefore : Prop :=
  (∀ s : State, s.enum.valid = true → exec .rst s = Spec.answered { s with enum := { s.enum with cur := -1 } } 0) ∧
  (∀ s : State, s.enum.valid = false → exec .rst s = Spec.failed s .uninitialized) ∧
  (∀ cmd : Word32, decode cmd = .ok .rst ↔ cmd = 0x00000009#32)

/-- CUR (R113): the byte at the cursor, InvalidState at BEFORE and at END, Uninitialized without an enumerator; nothing else changes,
the cursor included; its word is 0x0A. -/
def Obligations.CurAnswersTheByteAtTheCursor : Prop :=
  (∀ (s : State) (c : Nat), s.enum.valid = true → s.enum.cur = ((c : Nat) : Int) → c < s.enum.n.toNat →
    exec .cur s = Spec.answered s ((s.enum.e.toList.getD c 0).setWidth 64)) ∧
  (∀ s : State, s.enum.valid = true → s.enum.cur < 0 ∨ (s.enum.n.toNat : Int) ≤ s.enum.cur →
    exec .cur s = Spec.failed s .invalidState) ∧
  (∀ s : State, s.enum.valid = false → exec .cur s = Spec.failed s .uninitialized) ∧
  (∀ cmd : Word32, decode cmd = .ok .cur ↔ cmd = 0x0000000A#32)

/-- R114, the cursor as a state machine: what ADV, RST and CUR do at BEFORE, inside, at the last byte and at END. -/
def Obligations.CursorStateMachine : Prop :=
  ∀ s : State, s.enum.valid = true →
    (exec .adv (Spec.atCursor s (-1)) = Spec.answered (Spec.atCursor s 0) 1 ∧
      exec .rst (Spec.atCursor s (-1)) = Spec.answered (Spec.atCursor s (-1)) 0 ∧
      exec .cur (Spec.atCursor s (-1)) = Spec.failed (Spec.atCursor s (-1)) .invalidState) ∧
    (∀ k : Nat, k + 1 < s.enum.n.toNat →
      exec .adv (Spec.atCursor s k) = Spec.answered (Spec.atCursor s (k + 1)) 1 ∧
      exec .rst (Spec.atCursor s k) = Spec.answered (Spec.atCursor s (-1)) 0 ∧
      exec .cur (Spec.atCursor s k) = Spec.answered (Spec.atCursor s k) ((s.enum.e.toList.getD k 0).setWidth 64)) ∧
    (∀ k : Nat, k + 1 = s.enum.n.toNat →
      exec .adv (Spec.atCursor s k) = Spec.answered (Spec.atCursor s s.enum.n.toNat) 0 ∧
      exec .rst (Spec.atCursor s k) = Spec.answered (Spec.atCursor s (-1)) 0 ∧
      exec .cur (Spec.atCursor s k) = Spec.answered (Spec.atCursor s k) ((s.enum.e.toList.getD k 0).setWidth 64)) ∧
    (exec .adv (Spec.atCursor s s.enum.n.toNat) = Spec.answered (Spec.atCursor s s.enum.n.toNat) 0 ∧
      exec .rst (Spec.atCursor s s.enum.n.toNat) = Spec.answered (Spec.atCursor s (-1)) 0 ∧
      exec .cur (Spec.atCursor s s.enum.n.toNat) = Spec.failed (Spec.atCursor s s.enum.n.toNat) .invalidState)

/-- R117: after ENUM, n ADVs answer 1 and the next one 0; a following RST and ADV answer 1, and CUR then answers the first byte. -/
def Obligations.EnumeratorExhaustionLaw : Prop :=
  ∀ s : State, s.view.valid = true → ∃ t : Nat → State, exec .enum s = .next (t 0) ∧
    (∀ k < bytes s.view.wc, exec .adv (t k) = .next (t (k + 1)) ∧ Spec.gives (t (k + 1)) 1) ∧
    (∃ x y z c, exec .adv (t (bytes s.view.wc)) = .next x ∧ Spec.gives x 0 ∧ exec .rst x = .next y ∧ exec .adv y = .next z ∧
      Spec.gives z 1 ∧ exec .cur z = .next c ∧ Spec.gives c ((viewByte s.view 0).setWidth 64))

/-- TOARR (R115): all N bytes of the view in rbyte, 0 in the other lanes, rcount = N; nothing else changes; its word is 0x0B. -/
def Obligations.ToarrAnswersTheBytes : Prop :=
  (∀ s : State, s.view.valid = true → exec .toarr s = Spec.sequenced s (viewByte s.view) (bytes s.view.wc)) ∧
  (∀ s : State, s.view.valid = false → exec .toarr s = Spec.failed s .uninitialized) ∧
  (∀ cmd : Word32, decode cmd = .ok .toarr ↔ cmd = 0x0000000B#32)

/-- TOLIST (R116): the result of TOARR in every field, from every state; its word is 0x0C. -/
def Obligations.TolistAnswersTheBytes : Prop :=
  (∀ s : State, s.view.valid = true → exec .tolist s = Spec.sequenced s (viewByte s.view) (bytes s.view.wc)) ∧
  (∀ s : State, exec .tolist s = exec .toarr s) ∧
  (∀ s : State, s.view.valid = false → exec .tolist s = Spec.failed s .uninitialized) ∧
  (∀ cmd : Word32, decode cmd = .ok .tolist ↔ cmd = 0x0000000C#32)

/-! ### The buffer copies -/

/-- COPY (R130): with 0 <= ds and ds + N <= LEN, DST[ds .. ds+N-1] are the bytes of the view, every other byte of DST reads as before,
and nothing else changes; otherwise IndexOutOfRange with nothing written; its word is 0x0D. -/
def Obligations.CopyWritesTheBytes : Prop :=
  (∀ (s : State) (ds : Nat), s.dst.wf = true → s.view.valid = true → s.ports.i0.toInt = ((ds : Nat) : Int) →
    ds + bytes s.view.wc ≤ s.ports.len.toNat →
    ∃ m : Memory, exec .copy s = Spec.answered { s with dst := m } 0 ∧
      ∀ a, m.read a = if ds ≤ a ∧ a < ds + bytes s.view.wc then viewByte s.view (a - ds) else s.dst.read a) ∧
  (∀ s : State, s.view.valid = true → s.ports.i0.toInt < 0 ∨ (s.ports.len.toNat : Int) < s.ports.i0.toInt + bytes s.view.wc →
    exec .copy s = Spec.failed s .indexOutOfRange) ∧
  (∀ s : State, s.view.valid = false → exec .copy s = Spec.failed s .uninitialized) ∧
  (∀ cmd : Word32, decode cmd = .ok .copy ↔ cmd = 0x0000000D#32)

/-- COPYR (R131): with ss >= 0, ds >= 0, ss + cnt <= N and ds + cnt <= LEN, on exact integers, DST[ds + j] is byte ss + j of the view for
0 <= j < cnt, every other byte of DST reads as before and nothing else changes, and a count of 0 or less writes nothing; if one of the
four fails, IndexOutOfRange with nothing written; its word is 0x0E. -/
def Obligations.CopyrWritesTheRange : Prop :=
  (∀ (s : State) (ss ds cnt : Int), s.dst.wf = true → s.view.valid = true →
    s.ports.i0.toInt = ss → s.ports.i1.toInt = ds → s.ports.i2.toInt = cnt →
    0 ≤ ss → 0 ≤ ds → ss + cnt ≤ (bytes s.view.wc : Int) → ds + cnt ≤ (s.ports.len.toNat : Int) →
    ∃ m : Memory, exec .copyr s = Spec.answered { s with dst := m } 0 ∧ (cnt ≤ 0 → m = s.dst) ∧
      ∀ a : Nat, m.read a =
        if ds ≤ (a : Int) ∧ (a : Int) < ds + cnt then viewByte s.view (ss + ((a : Int) - ds)).toNat else s.dst.read a) ∧
  (∀ (s : State) (ss ds cnt : Int), s.view.valid = true →
    s.ports.i0.toInt = ss → s.ports.i1.toInt = ds → s.ports.i2.toInt = cnt →
    ss < 0 ∨ ds < 0 ∨ (bytes s.view.wc : Int) < ss + cnt ∨ (s.ports.len.toNat : Int) < ds + cnt →
    exec .copyr s = Spec.failed s .indexOutOfRange) ∧
  (∀ s : State, s.view.valid = false → exec .copyr s = Spec.failed s .uninitialized) ∧
  (∀ cmd : Word32, decode cmd = .ok .copyr ↔ cmd = 0x0000000E#32)

/-- R132: COPY has the effect and the status of COPYR with sourceStart 0, the same destinationStart and count N, from every state. -/
def Obligations.CopyIsCopyrOfTheWholeView : Prop :=
  ∀ s : State, ∃ t, exec .copy s = .next t ∧
    let p : Ports := { s.ports with i0 := 0, i1 := s.ports.i0, i2 := BitVec.ofNat 32 (bytes s.view.wc) }
    exec .copyr { s with ports := p } = .next { t with ports := p }

/-! ### The whole machine -/

/-- R140: the codes of the statuses; 6 and 7 are never produced. -/
def Obligations.StatusCodes : Prop :=
  Status.ok.code = 0 ∧ Status.invalidBufferLength.code = 1 ∧ Status.indexOutOfRange.code = 2 ∧ Status.invalidState.code = 3 ∧
  Status.illegalCommand.code = 4 ∧ Status.uninitialized.code = 5 ∧ ∀ st : Status, st.code ≠ 6 ∧ st.code ≠ 7

/-- R145: every command answers one response, and one whose status is not OK comes with no other change and with its other fields 0. -/
def Obligations.ErrorsArePrecise : Prop :=
  ∀ (i : Instr) (s : State), ∃ t r, exec i s = .next t ∧ t.resp = some r ∧ (r.status ≠ .ok → exec i s = Spec.failed s r.status)

/-- R146: which command raises which status: none outside its row, and every one in its row from some state; a legal word never raises
IllegalCommand, and some word with each command's OP does. -/
def Obligations.StatusMatrix : Prop :=
  (∀ (i : Instr) (s t : State) (r : Response), exec i s = .next t → t.resp = some r → r.status = .ok ∨ r.status ∈ Spec.raisable i) ∧
  (∀ i : Instr, ∀ st ∈ Spec.raisable i, ∃ s, exec i s = Spec.failed s st) ∧
  (∀ i, ∃ cmd : Word32, cmd.extractLsb' 0 4 = (encode i).extractLsb' 0 4 ∧ ∀ j, decode cmd ≠ .ok j)

/-- R20: VIEW is written only by a successful LDV or LDB, and each such write replaces all five fields. -/
def Obligations.OnlyLoadsWriteView : Prop :=
  (∀ (i : Instr) (s t : State), exec i s = .next t → t.view ≠ s.view → ∃ w f g, i = .ldv w f g ∨ i = .ldb w f g) ∧
  (∀ (i : Instr) (w : Width) (f : Format) (g : Signedness) (s t : State) (r : Response),
    i = .ldv w f g ∨ i = .ldb w f g → exec i s = .next t → t.resp = some r →
    (r.status = .ok → t.view = { valid := true, wc := w, s := g, fmt := f, value := canon w g t.view.value }) ∧
    (r.status ≠ .ok → t.view = s.view))

/-- R21: ENUM is written only by ENUM (all fields: valid, n, the byte fields e[0..7] and the cursor), by ADV and by RST (the cursor only); a
load does not refresh its bytes (R167). -/
def Obligations.OnlyCursorCommandsWriteEnum : Prop :=
  (∀ (i : Instr) (s t : State), exec i s = .next t → t.enum ≠ s.enum → i = .enum ∨ i = .adv ∨ i = .rst) ∧
  (∀ (i : Instr) (s t : State), i = .adv ∨ i = .rst → exec i s = .next t → t.enum = { s.enum with cur := t.enum.cur }) ∧
  (∀ s t : State, exec .enum s = .next t → s.view.valid = true → t.enum.valid = true ∧ t.enum.n.toNat = bytes s.view.wc ∧
    t.enum.e = Spec.lanes (viewByte s.view) (bytes s.view.wc) ∧ t.enum.cur = -1)

/-- The frame of every command on the host's side: no command writes SRC, the ports, the inbox or the model's counter, and only COPY and
COPYR write DST (R40, R42, R55). -/
def Obligations.CommandsLeaveTheHostSideAlone : Prop :=
  ∀ (i : Instr) (s t : State), exec i s = .next t →
    t.src = s.src ∧ t.ports = s.ports ∧ t.inbox = s.inbox ∧ t.choice = s.choice ∧
    (i ≠ .copy → i ≠ .copyr → t.dst = s.dst)

/-- The frame of DST (R42): COPY changes no byte outside [ds, ds + N) and COPYR none outside [ds, ds + max(0, count)), the starts read
from the ports as the meanings read them; one that raises changes no byte. -/
def Obligations.CopiesWriteOnlyTheirBytes : Prop :=
  (∀ s t : State, s.dst.wf = true → exec .copy s = .next t → ∀ a : Nat,
    ¬ (copyDestStart s ≤ (a : Int) ∧ (a : Int) < copyDestStart s + bytes s.view.wc) → t.dst.read a = s.dst.read a) ∧
  (∀ s t : State, s.dst.wf = true → exec .copyr s = .next t → ∀ a : Nat,
    ¬ (rangeDestStart s ≤ (a : Int) ∧ (a : Int) < rangeDestStart s + max 0 (rangeCount s)) → t.dst.read a = s.dst.read a) ∧
  (∀ (i : Instr) (s t : State) (r : Response),
    i = .copy ∨ i = .copyr → exec i s = .next t → t.resp = some r → r.status ≠ .ok → t.dst = s.dst)

/-- R66, of the ports marked - : a port a command does not read has no effect. With the ports it reads the same, the command does the same to everything else. -/
def Obligations.UnreadPortsHaveNoEffect : Prop :=
  ∀ (i : Instr) (s : State) (p : Ports), Spec.sameOperands i s.ports p →
    ∃ t, exec i s = .next t ∧ exec i { s with ports := p } = .next { t with ports := p }

/-- R34: the step of a command is total: every command, legal or not, from every state and with all operands, answers a next state with a
response. -/
def Obligations.EveryCommandCompletes : Prop :=
  ∀ (s : State) (c : Command) (rest : List HostEvent), s.inbox = .command c :: rest → ∃ t r, step s = .next t ∧ t.resp = some r ∧
    (r.status ≠ .ok → t = { s with inbox := rest, ports := c.ports, resp := some r })

/-- No step from any state stops with a fault: no `-` cell of the ROM is read (R25), no buffer access leaves [0, LEN) (R131), and no lane
beyond the eighth is read. -/
def Obligations.NoStepFaults : Prop := ∀ s : State, SafeStep s

/-- The invariant holds after reset. -/
def Obligations.InvariantHoldsAtReset : Prop := State.reset.Inv

/-- Every step keeps the invariant: VIEW stays canonical (R22), the cursor stays in [-1, n] and e[k] = 0 for k >= n (R21), both buffers
keep their canonical form, and a response of an error carries nothing but its status (R145). -/
def Obligations.EveryStepKeepsTheInvariant : Prop := ∀ s t : State, s.Inv → step s = .next t → t.Inv

/-! ### The assembler, the host's side (R73, R74) -/

/-- The assembler of R73, line by line: the one command each line presents, its word written out in the numbers of the opcode map and its
literals on the ports they name, which read back as the literals (a port a line does not name is 0, log 13). Every line but LDB makes the host
do nothing else; LDB first writes bs[k] to SRC index k, for every k in turn (the list is SRC). The word decodes to the command the line names.
The macros of R74 make the host do what the lines of its table do. -/
def Obligations.AssemblerLinesPresentTheirCommand : Prop :=
  (∀ (w : Width) (f : Format) (i : Int), Spec.fits32 i → ∃ x : Word32, x.toInt = i ∧
    (AsmLine.shift w f i).assemble = [.command ⟨Spec.shiftWord w f, { a := 0, i0 := x, i1 := 0, i2 := 0, len := 0 }⟩]) ∧
  (∀ (w : Width) (g : Signedness) (f : Format) (v : Int), Spec.fits64 v → ∃ x : Word64, Spec.denotes x v ∧
    (AsmLine.ldv w g f v).assemble = [.command ⟨Spec.ldvWord w f g, { a := x, i0 := 0, i1 := 0, i2 := 0, len := 0 }⟩]) ∧
  (∀ (w : Width) (g : Signedness) (f : Format) (bs : List Byte), bs.length < 2 ^ 32 → ∃ (x : Word32) (pre : List HostEvent),
    x.toNat = bs.length ∧ Spec.laysOut pre bs ∧
    (AsmLine.ldb w g f bs).assemble =
      pre ++ [.command ⟨Spec.ldbWord w f g, { a := 0, i0 := 0, i1 := 0, i2 := 0, len := x }⟩]) ∧
  (∀ i : Int, Spec.fits32 i → ∃ x : Word32, x.toInt = i ∧
    (AsmLine.byte i).assemble = [.command ⟨0x04, { a := 0, i0 := x, i1 := 0, i2 := 0, len := 0 }⟩]) ∧
  AsmLine.count.assemble = [Spec.bare 0x05] ∧ AsmLine.getv.assemble = [Spec.bare 0x06] ∧
  AsmLine.enum.assemble = [Spec.bare 0x07] ∧ AsmLine.adv.assemble = [Spec.bare 0x08] ∧
  AsmLine.rst.assemble = [Spec.bare 0x09] ∧ AsmLine.cur.assemble = [Spec.bare 0x0A] ∧
  AsmLine.toarr.assemble = [Spec.bare 0x0B] ∧ AsmLine.tolist.assemble = [Spec.bare 0x0C] ∧
  (∀ (ds : Int) (len : Nat), Spec.fits32 ds → len < 2 ^ 32 → ∃ x n : Word32, x.toInt = ds ∧ n.toNat = len ∧
    (AsmLine.copy ds len).assemble = [.command ⟨0x0D, { a := 0, i0 := x, i1 := 0, i2 := 0, len := n }⟩]) ∧
  (∀ (ss ds cnt : Int) (len : Nat), Spec.fits32 ss → Spec.fits32 ds → Spec.fits32 cnt → len < 2 ^ 32 →
    ∃ x y z n : Word32, x.toInt = ss ∧ y.toInt = ds ∧ z.toInt = cnt ∧ n.toNat = len ∧
    (AsmLine.copyr ss ds cnt len).assemble = [.command ⟨0x0E, { a := 0, i0 := x, i1 := y, i2 := z, len := n }⟩]) ∧
  (∀ l : AsmLine, ∃ pre c, l.assemble = pre ++ [.command c] ∧ decode c.word = .ok l.instr) ∧
  (∀ w g f bs, assembleAll (AsmMacro.asx w g f bs).expand = (AsmLine.ldb w g f bs).assemble ++ [Spec.bare 0x06]) ∧
  (∀ w g f v, assembleAll (AsmMacro.tobytes w g f v).expand = (AsmLine.ldv w g f v).assemble ++ [Spec.bare 0x0B]) ∧
  (∀ w g f v ds len, assembleAll (AsmMacro.cptobuf w g f v ds len).expand =
    (AsmLine.ldv w g f v).assemble ++ (AsmLine.copy ds len).assemble)

/-- R73, "the list is SRC", run: with an LDB line's events at the head of the inbox, one step for each byte lays the list out in SRC, from
index 0 on, and changes no other byte and no register; then its LDB is presented with LEN the length of the list, and the view it
loads has the bytes of the list when there are N of them; another length raises InvalidBufferLength (R92). -/
def Obligations.LdbLineLoadsItsList : Prop :=
  ∀ (s : State) (w : Width) (g : Signedness) (f : Format) (bs : List Byte) (rest : List HostEvent), bs.length < 2 ^ 32 →
    s.src.wf = true → s.inbox = (AsmLine.ldb w g f bs).assemble ++ rest →
    ∃ (t : Nat → State) (x : Word32), x.toNat = bs.length ∧ t 0 = s ∧ (∀ k < bs.length, step (t k) = .next (t (k + 1))) ∧
      let l := t bs.length
      let p : Ports := { a := 0, i0 := 0, i1 := 0, i2 := 0, len := x }
      (∀ a, l.src.read a = bs.getD a (s.src.read a)) ∧
      l.view = s.view ∧ l.enum = s.enum ∧ l.dst = s.dst ∧ l.ports = s.ports ∧ l.choice = s.choice ∧
      l.inbox = .command ⟨Spec.ldbWord w f g, p⟩ :: rest ∧
      (bs.length = bytes w → ∃ v : View, v.valid = true ∧ v.wc = w ∧ v.s = g ∧ v.fmt = f ∧
        (∀ k < bytes w, bs[k]? = some (viewByte v k)) ∧
        step l = Spec.answered { l with view := v, inbox := rest, ports := p } 0) ∧
      (bs.length ≠ bytes w → step l = Spec.failed { l with inbox := rest, ports := p } .invalidBufferLength)
end

