-- ==== Sys2Proof/Laws/Memory.lean ====
section
/-! SUPPORT. The laws of the byte buffers: read after write, the canonical form is kept, and equal reads of canonical buffers are
equal data. -/

namespace Sys2Proof.Machine

@[simp] theorem Memory.read_nil (a : Nat) : Memory.read [] a = Config.unlistedByte := rfl

@[simp] theorem Memory.wf_nil : Memory.wf [] = true := rfl

theorem Memory.wf_cons {k : Nat} {b : Byte} {m : Memory} :
    Memory.wf ((k, b) :: m) = true ↔
      k < Config.bufferLimit ∧ b ≠ Config.unlistedByte ∧ (∀ c ∈ m, k < c.1) ∧ m.wf = true := by
  simp [Memory.wf, and_assoc]

/-- An index below the first cell of a rising list is below every cell. -/
theorem Memory.below_cons {k j : Nat} {x : Byte} {m : Memory} (hj : j < k) (h : ∀ c ∈ m, k < c.1) :
    ∀ c ∈ (k, x) :: m, j < c.1 := by
  intro c hc
  rcases List.mem_cons.mp hc with rfl | hc
  · exact hj
  · exact hj.trans (h c hc)

/-- An index below every cell reads as an unlisted one. -/
theorem Memory.read_of_below {m : Memory} {a : Nat} (h : ∀ c ∈ m, a < c.1) : m.read a = Config.unlistedByte := by
  induction m with
  | nil => rfl
  | cons c m ih =>
    have hc := h c (by simp)
    simp only [Memory.read]
    rw [if_neg (by omega)]
    exact ih fun d hd => h d (by simp [hd])

/-- A read after a write gives the byte written at that index, and what was there at every other. -/
theorem Memory.read_write {m : Memory} (hm : m.wf = true) (a a' : Nat) (b : Byte) :
    (m.write a b).read a' = if a' = a then b else m.read a' := by
  induction m with
  | nil =>
    by_cases hb : b = Config.unlistedByte
    · simp [Memory.write, hb]
    · simp [Memory.write, Memory.read, hb, eq_comm]
  | cons c m ih =>
    obtain ⟨k, x⟩ := c
    obtain ⟨-, hx, hlt, hw⟩ := Memory.wf_cons.mp hm
    have hk : Memory.read m k = Config.unlistedByte := Memory.read_of_below hlt
    rcases Nat.lt_trichotomy a k with h | h | h
    · have hlow : Memory.read ((k, x) :: m) a = Config.unlistedByte :=
        Memory.read_of_below (Memory.below_cons h hlt)
      simp only [Memory.write, h, if_true]
      by_cases hb : b = Config.unlistedByte
      · by_cases ha : a' = a
        · simp [hb, ha, hlow]
        · simp [hb, ha]
      · by_cases ha : a' = a
        · simp [hb, ha, Memory.read]
        · simp [hb, ha, Memory.read, Ne.symm ha]
    · subst h
      simp only [Memory.write, lt_irrefl, if_true, if_false]
      by_cases hb : b = Config.unlistedByte
      · by_cases ha : a' = a
        · simp [hb, ha, hk]
        · simp [hb, ha, Memory.read, Ne.symm ha]
      · by_cases ha : a' = a
        · simp [hb, ha, Memory.read]
        · simp [hb, ha, Memory.read, Ne.symm ha]
    · have h1 : ¬ a < k := by omega
      have h2 : a ≠ k := by omega
      simp only [Memory.write, h1, h2, if_false, Memory.read]
      by_cases ha : k = a'
      · subst ha
        simp [Ne.symm h2]
      · simp only [ha, if_false]
        exact ih hw

/-- Every cell of a written buffer is the written one or an old one. -/
theorem Memory.mem_write {m : Memory} {a : Nat} {b : Byte} {c : Host.Cell} (h : c ∈ m.write a b) : c = (a, b) ∨ c ∈ m := by
  induction m with
  | nil =>
    simp only [Memory.write] at h
    split at h <;> simp_all
  | cons d m ih =>
    simp only [Memory.write] at h
    split at h
    · split at h <;> simp_all
    · split at h
      · split at h
        · simp_all
        · simp at h
          tauto
      · rcases List.mem_cons.mp h with rfl | h
        · simp
        · rcases ih h with rfl | h <;> simp_all

/-- A write at an index of the buffer keeps the canonical form. -/
theorem Memory.wf_write {m : Memory} (hm : m.wf = true) {a : Nat} (ha : a < Config.bufferLimit) (b : Byte) :
    (m.write a b).wf = true := by
  induction m with
  | nil => by_cases hb : b = Config.unlistedByte <;> simp [Memory.write, hb, Memory.wf_cons, ha]
  | cons c m ih =>
    obtain ⟨k, x⟩ := c
    obtain ⟨hk, hx, hlt, hw⟩ := Memory.wf_cons.mp hm
    simp only [Memory.write]
    rcases Nat.lt_trichotomy a k with h | h | h
    · by_cases hb : b = Config.unlistedByte
      · simpa [h, hb] using hm
      · simp only [h, hb, if_true, if_false]
        exact Memory.wf_cons.mpr ⟨ha, hb, Memory.below_cons h hlt, hm⟩
    · subst h
      by_cases hb : b = Config.unlistedByte
      · simpa [hb] using hw
      · simp only [lt_irrefl, hb, if_true, if_false]
        exact Memory.wf_cons.mpr ⟨ha, hb, hlt, hw⟩
    · rw [if_neg (by omega), if_neg (by omega)]
      refine Memory.wf_cons.mpr ⟨hk, hx, fun d hd => ?_, ih hw⟩
      rcases Memory.mem_write hd with rfl | hd
      · exact h
      · exact hlt d hd

/-- Two canonical buffers that read the same everywhere are the same data. -/
theorem Memory.ext_of_wf {m m' : Memory} (hm : m.wf = true) (hm' : m'.wf = true) (h : ∀ a, m.read a = m'.read a) : m = m' := by
  induction m generalizing m' with
  | nil =>
    cases m' with
    | nil => rfl
    | cons c m' =>
      obtain ⟨k, x⟩ := c
      have := h k
      simp [Memory.read] at this
      exact absurd this.symm (Memory.wf_cons.mp hm').2.1
  | cons c m ih =>
    obtain ⟨k, x⟩ := c
    obtain ⟨-, hx, hlt, hw⟩ := Memory.wf_cons.mp hm
    have hkx : Memory.read ((k, x) :: m) k = x := by simp [Memory.read]
    cases m' with
    | nil => exact absurd (hkx.symm.trans (h k)) hx
    | cons c' m' =>
      obtain ⟨k', x'⟩ := c'
      obtain ⟨-, hx', hlt', hw'⟩ := Memory.wf_cons.mp hm'
      have hkx' : Memory.read ((k', x') :: m') k' = x' := by simp [Memory.read]
      have hk : k = k' := by
        rcases Nat.lt_trichotomy k k' with hlt1 | heq | hlt1
        · have h0 : Memory.read ((k', x') :: m') k = Config.unlistedByte :=
            Memory.read_of_below (Memory.below_cons hlt1 hlt')
          exact absurd (hkx.symm.trans ((h k).trans h0)) hx
        · exact heq
        · have h0 : Memory.read ((k, x) :: m) k' = Config.unlistedByte :=
            Memory.read_of_below (Memory.below_cons hlt1 hlt)
          exact absurd (hkx'.symm.trans ((h k').symm.trans h0)) hx'
      subst hk
      have hxx : x = x' := by rw [← hkx, ← hkx', h]
      subst hxx
      congr 1
      refine ih hw hw' fun a => ?_
      by_cases ha : k = a
      · subst ha
        rw [Memory.read_of_below hlt, Memory.read_of_below hlt']
      · have := h a
        simpa [Memory.read, ha] using this

end Sys2Proof.Machine
end

