-- ==== Sys2Proof/Laws/State.lean ====
section
/-! SUPPORT. What each named update of State sets and leaves alone, and that an update overwrites an earlier one of the same field. -/

namespace Sys2Proof.Machine

variable (s : State)

@[simp] theorem State.withView_view (v : View) : (s.withView v).view = v := rfl
@[simp] theorem State.withView_enum (v : View) : (s.withView v).enum = s.enum := rfl
@[simp] theorem State.withView_ports (v : View) : (s.withView v).ports = s.ports := rfl
@[simp] theorem State.withView_src (v : View) : (s.withView v).src = s.src := rfl
@[simp] theorem State.withView_dst (v : View) : (s.withView v).dst = s.dst := rfl
@[simp] theorem State.withView_resp (v : View) : (s.withView v).resp = s.resp := rfl
@[simp] theorem State.withView_inbox (v : View) : (s.withView v).inbox = s.inbox := rfl
@[simp] theorem State.withView_choice (v : View) : (s.withView v).choice = s.choice := rfl
@[simp] theorem State.withView_withView (v v' : View) : (s.withView v).withView v' = s.withView v' := rfl
@[simp] theorem State.withView_self : s.withView s.view = s := rfl

@[simp] theorem State.withEnum_view (e : Enumerator) : (s.withEnum e).view = s.view := rfl
@[simp] theorem State.withEnum_enum (e : Enumerator) : (s.withEnum e).enum = e := rfl
@[simp] theorem State.withEnum_ports (e : Enumerator) : (s.withEnum e).ports = s.ports := rfl
@[simp] theorem State.withEnum_src (e : Enumerator) : (s.withEnum e).src = s.src := rfl
@[simp] theorem State.withEnum_dst (e : Enumerator) : (s.withEnum e).dst = s.dst := rfl
@[simp] theorem State.withEnum_resp (e : Enumerator) : (s.withEnum e).resp = s.resp := rfl
@[simp] theorem State.withEnum_inbox (e : Enumerator) : (s.withEnum e).inbox = s.inbox := rfl
@[simp] theorem State.withEnum_choice (e : Enumerator) : (s.withEnum e).choice = s.choice := rfl
@[simp] theorem State.withEnum_withEnum (e e' : Enumerator) : (s.withEnum e).withEnum e' = s.withEnum e' := rfl
@[simp] theorem State.withEnum_self : s.withEnum s.enum = s := rfl

@[simp] theorem State.withPorts_view (p : Ports) : (s.withPorts p).view = s.view := rfl
@[simp] theorem State.withPorts_enum (p : Ports) : (s.withPorts p).enum = s.enum := rfl
@[simp] theorem State.withPorts_ports (p : Ports) : (s.withPorts p).ports = p := rfl
@[simp] theorem State.withPorts_src (p : Ports) : (s.withPorts p).src = s.src := rfl
@[simp] theorem State.withPorts_dst (p : Ports) : (s.withPorts p).dst = s.dst := rfl
@[simp] theorem State.withPorts_resp (p : Ports) : (s.withPorts p).resp = s.resp := rfl
@[simp] theorem State.withPorts_inbox (p : Ports) : (s.withPorts p).inbox = s.inbox := rfl
@[simp] theorem State.withPorts_choice (p : Ports) : (s.withPorts p).choice = s.choice := rfl
@[simp] theorem State.withPorts_withPorts (p p' : Ports) : (s.withPorts p).withPorts p' = s.withPorts p' := rfl
@[simp] theorem State.withPorts_self : s.withPorts s.ports = s := rfl

@[simp] theorem State.withSrc_view (m : Memory) : (s.withSrc m).view = s.view := rfl
@[simp] theorem State.withSrc_enum (m : Memory) : (s.withSrc m).enum = s.enum := rfl
@[simp] theorem State.withSrc_ports (m : Memory) : (s.withSrc m).ports = s.ports := rfl
@[simp] theorem State.withSrc_src (m : Memory) : (s.withSrc m).src = m := rfl
@[simp] theorem State.withSrc_dst (m : Memory) : (s.withSrc m).dst = s.dst := rfl
@[simp] theorem State.withSrc_resp (m : Memory) : (s.withSrc m).resp = s.resp := rfl
@[simp] theorem State.withSrc_inbox (m : Memory) : (s.withSrc m).inbox = s.inbox := rfl
@[simp] theorem State.withSrc_choice (m : Memory) : (s.withSrc m).choice = s.choice := rfl
@[simp] theorem State.withSrc_withSrc (m m' : Memory) : (s.withSrc m).withSrc m' = s.withSrc m' := rfl
@[simp] theorem State.withSrc_self : s.withSrc s.src = s := rfl

@[simp] theorem State.withDst_view (m : Memory) : (s.withDst m).view = s.view := rfl
@[simp] theorem State.withDst_enum (m : Memory) : (s.withDst m).enum = s.enum := rfl
@[simp] theorem State.withDst_ports (m : Memory) : (s.withDst m).ports = s.ports := rfl
@[simp] theorem State.withDst_src (m : Memory) : (s.withDst m).src = s.src := rfl
@[simp] theorem State.withDst_dst (m : Memory) : (s.withDst m).dst = m := rfl
@[simp] theorem State.withDst_resp (m : Memory) : (s.withDst m).resp = s.resp := rfl
@[simp] theorem State.withDst_inbox (m : Memory) : (s.withDst m).inbox = s.inbox := rfl
@[simp] theorem State.withDst_choice (m : Memory) : (s.withDst m).choice = s.choice := rfl
@[simp] theorem State.withDst_withDst (m m' : Memory) : (s.withDst m).withDst m' = s.withDst m' := rfl
@[simp] theorem State.withDst_self : s.withDst s.dst = s := rfl

@[simp] theorem State.withResp_view (r : Option Response) : (s.withResp r).view = s.view := rfl
@[simp] theorem State.withResp_enum (r : Option Response) : (s.withResp r).enum = s.enum := rfl
@[simp] theorem State.withResp_ports (r : Option Response) : (s.withResp r).ports = s.ports := rfl
@[simp] theorem State.withResp_src (r : Option Response) : (s.withResp r).src = s.src := rfl
@[simp] theorem State.withResp_dst (r : Option Response) : (s.withResp r).dst = s.dst := rfl
@[simp] theorem State.withResp_resp (r : Option Response) : (s.withResp r).resp = r := rfl
@[simp] theorem State.withResp_inbox (r : Option Response) : (s.withResp r).inbox = s.inbox := rfl
@[simp] theorem State.withResp_choice (r : Option Response) : (s.withResp r).choice = s.choice := rfl
@[simp] theorem State.withResp_withResp (r r' : Option Response) : (s.withResp r).withResp r' = s.withResp r' := rfl
@[simp] theorem State.withResp_self : s.withResp s.resp = s := rfl

@[simp] theorem State.withInbox_view (l : List HostEvent) : (s.withInbox l).view = s.view := rfl
@[simp] theorem State.withInbox_enum (l : List HostEvent) : (s.withInbox l).enum = s.enum := rfl
@[simp] theorem State.withInbox_ports (l : List HostEvent) : (s.withInbox l).ports = s.ports := rfl
@[simp] theorem State.withInbox_src (l : List HostEvent) : (s.withInbox l).src = s.src := rfl
@[simp] theorem State.withInbox_dst (l : List HostEvent) : (s.withInbox l).dst = s.dst := rfl
@[simp] theorem State.withInbox_resp (l : List HostEvent) : (s.withInbox l).resp = s.resp := rfl
@[simp] theorem State.withInbox_inbox (l : List HostEvent) : (s.withInbox l).inbox = l := rfl
@[simp] theorem State.withInbox_choice (l : List HostEvent) : (s.withInbox l).choice = s.choice := rfl
@[simp] theorem State.withInbox_withInbox (l l' : List HostEvent) : (s.withInbox l).withInbox l' = s.withInbox l' := rfl
@[simp] theorem State.withInbox_self : s.withInbox s.inbox = s := rfl

@[simp] theorem State.withChoice_view (k : Nat) : (s.withChoice k).view = s.view := rfl
@[simp] theorem State.withChoice_enum (k : Nat) : (s.withChoice k).enum = s.enum := rfl
@[simp] theorem State.withChoice_ports (k : Nat) : (s.withChoice k).ports = s.ports := rfl
@[simp] theorem State.withChoice_src (k : Nat) : (s.withChoice k).src = s.src := rfl
@[simp] theorem State.withChoice_dst (k : Nat) : (s.withChoice k).dst = s.dst := rfl
@[simp] theorem State.withChoice_resp (k : Nat) : (s.withChoice k).resp = s.resp := rfl
@[simp] theorem State.withChoice_inbox (k : Nat) : (s.withChoice k).inbox = s.inbox := rfl
@[simp] theorem State.withChoice_choice (k : Nat) : (s.withChoice k).choice = k := rfl
@[simp] theorem State.withChoice_withChoice (k k' : Nat) : (s.withChoice k).withChoice k' = s.withChoice k' := rfl
@[simp] theorem State.withChoice_self : s.withChoice s.choice = s := rfl

end Sys2Proof.Machine
end

