-- ==== Sys2Proof/Laws/Ops.lean ====
section
/-! SUPPORT. One lemma per shared operation: everything it can do, so that no later proof unfolds it. -/

namespace Sys2Proof.Machine

/-! Widths (R23). -/

@[simp] theorem bytes_w16 : bytes .w16 = 2 := rfl
@[simp] theorem bytes_w32 : bytes .w32 = 4 := rfl
@[simp] theorem bytes_w48 : bytes .w48 = 6 := rfl
@[simp] theorem bytes_w64 : bytes .w64 = 8 := rfl
@[simp] theorem toNat_arityOf (w : Width) : (arityOf w).toNat = bytes w := rfl

theorem bytes_pos (w : Width) : 0 < bytes w := by cases w <;> decide
theorem bytes_le (w : Width) : bytes w ≤ 8 := by cases w <;> decide
theorem arity_le (n : Arity) : n.toNat ≤ 8 := by cases n <;> decide

/-! Ending a command (R12, R72). -/

/-- The two gates answer what the rule answers when the register is valid, and Uninitialized when it is not. -/
theorem readingView_valid {s : State} (h : s.view.valid = true) (k : View → Result) : readingView s k = k s.view := by
  simp [readingView, h]

theorem readingView_invalid {s : State} (h : s.view.valid = false) (k : View → Result) :
    readingView s k = raise s .uninitialized := by simp [readingView, h]

theorem readingEnum_valid {s : State} (h : s.enum.valid = true) (k : Enumerator → Result) : readingEnum s k = k s.enum := by
  simp [readingEnum, h]

theorem readingEnum_invalid {s : State} (h : s.enum.valid = false) (k : Enumerator → Result) :
    readingEnum s k = raise s .uninitialized := by simp [readingEnum, h]

@[simp] theorem proceed_ok {α : Type} (a : α) (k : α → Result) : proceed (.ok a) k = k a := rfl

@[simp] theorem proceed_error {α : Type} (f : Fault) (k : α → Result) : proceed (.error f) k = .fault f := rfl

/-! The ROM and the byte function (R24, R95). -/

theorem shiftAmount_lt {w : Width} {f : Format} {i : Nat} (h : i < bytes w) : shiftAmount w f i < 64 := by
  have := bytes_le w
  cases f <;> simp only [shiftAmount] <;> omega

/-- A cell of the ROM that exists holds the amount of R24. -/
theorem romEntry_of_lt {w : Width} {f : Format} {i : Nat} (h : i < bytes w) :
    romEntry w f i = .ok (BitVec.ofNat 6 (shiftAmount w f i)) := by
  cases f <;> simp [romEntry, h, shiftAmount]

/-- A `-` cell has no value. -/
theorem romEntry_of_ge {w : Width} {f : Format} {i : Nat} (h : bytes w ≤ i) : romEntry w f i = .error .romCell := by
  simp [romEntry, Nat.not_lt.mpr h]

theorem romEntry_toNat {w : Width} {f : Format} {i : Nat} (h : i < bytes w) :
    (BitVec.ofNat 6 (shiftAmount w f i)).toNat = shiftAmount w f i := by
  rw [BitVec.toNat_ofNat]
  exact Nat.mod_eq_of_lt (shiftAmount_lt h)

/-- Shifting down and masking is taking the eight bits (R95). -/
theorem shift_mask (x : Word64) (n : Nat) : ((x >>> n) &&& 0xFF#64).extractLsb' 0 8 = x.extractLsb' n 8 := by
  ext i hi
  interval_cases i <;> simp [BitVec.getElem_extractLsb']

/-- The byte function at an index of the view. -/
theorem byteAt_of_lt {v : View} {i : Nat} (h : i < bytes v.wc) : byteAt v i = .ok (viewByte v i) := by
  simp only [byteAt, romEntry_of_lt h, bind, Except.bind, pure, Except.pure, romEntry_toNat h, shift_mask]
  rfl

/-- Mapping an operation that answers at every element answers the mapped list. -/
theorem mapM_ok {α β : Type} {g : α → Except Fault β} {f : α → β} {l : List α} (h : ∀ a ∈ l, g a = .ok (f a)) :
    l.mapM g = .ok (l.map f) := by
  induction l with
  | nil => rfl
  | cons a l ih =>
    rw [List.mapM_cons, h a (by simp), ih fun b hb => h b (by simp [hb])]
    rfl

/-- The byte sequence of a view always exists. -/
theorem bytesOf_eq (v : View) : bytesOf v = .ok (viewBytes v) :=
  mapM_ok fun _ hi => byteAt_of_lt (List.mem_range.mp hi)

@[simp] theorem viewBytes_length (v : View) : (viewBytes v).length = bytes v.wc := by simp [viewBytes]

/-- A lane below 8 exists. -/
theorem laneAt_of_lt {l : Lanes} {k : Nat} (h : k < 8) : laneAt l k = .ok (l.toList.getD k 0) := by
  have hk : k < l.toList.length := by simpa [Lanes.toList] using h
  simp [laneAt, List.getD_eq_getElem?_getD, List.getElem?_eq_getElem hk]

/-- Lane k of a byte sequence of at most 8 bytes is its byte k, and 0 beyond it. -/
theorem ofList_lane (bs : List Byte) {k : Nat} (h : k < 8) : (Lanes.ofList bs).toList.getD k 0 = bs.getD k 0 := by
  interval_cases k <;> rfl

/-! The buffers (R11). -/

theorem memRead_of_lt {len i : Nat} {m : Memory} (h : i < len) : memRead len m i = .ok (m.read i) := by simp [memRead, h]

theorem memWrite_of_in {len : Nat} {m : Memory} {i : Int} {b : Byte} (h0 : 0 ≤ i) (h1 : i < len) :
    memWrite len m i b = .ok (m.write i.toNat b) := by simp [memWrite, h0, h1]

theorem foldlM_ok {α β : Type} {g : β → α → Except Fault β} {f : β → α → β} {l : List α} (b : β)
    (h : ∀ b, ∀ a ∈ l, g b a = .ok (f b a)) : l.foldlM g b = .ok (l.foldl f b) := by
  induction l generalizing b with
  | nil => rfl
  | cons a l ih =>
    rw [List.foldlM_cons, h b a (by simp)]
    exact ih (f b a) fun b' a' ha' => h b' a' (by simp [ha'])

/-- What LDB's loop accumulates from N bytes of SRC (R92). -/
def accumulated (w : Width) (f : Format) (src : Memory) : Word64 :=
  (List.range (bytes w)).foldl (fun acc i => acc ||| ((src.read i).setWidth 64 <<< shiftAmount w f i)) 0

/-- LDB's loop always ends when LEN = N. -/
theorem loadAll_eq (w : Width) (f : Format) (src : Memory) : loadAll w f (bytes w) src = .ok (accumulated w f src) :=
  foldlM_ok 0 fun acc i hi => by
    have hi := List.mem_range.mp hi
    simp only [loadByte, memRead_of_lt hi, romEntry_of_lt hi]
    simp [bind, Except.bind, pure, Except.pure, BitVec.toNat_ofNat, Nat.mod_eq_of_lt (shiftAmount_lt hi)]

/-- A list of writes applied in order. -/
def applyWrites (ws : List Write) (m : Memory) : Memory := ws.foldl (fun m w => m.write w.1.toNat w.2) m

/-- Writes that are all inside the buffer are all made. -/
theorem writeAll_of_in {len : Nat} {ws : List Write} (m : Memory) (h : ∀ w ∈ ws, 0 ≤ w.1 ∧ w.1 < len) :
    writeAll len ws m = .ok (applyWrites ws m) :=
  foldlM_ok m fun _ w hw => memWrite_of_in (h w hw).1 (h w hw).2

/-- The writes of bytes `f 0 .. f (n-1)` from index `ds` on. -/
def runOfWrites (ds : Int) (f : Nat → Byte) (n : Nat) : List Write := (List.range n).map fun (k : Nat) => (ds + (k : Int), f k)

/-- COPY's writes (R130). -/
theorem copyWrites_eq (v : View) (ds : Int) : copyWrites v ds = .ok (runOfWrites ds (viewByte v) (bytes v.wc)) :=
  mapM_ok (f := fun (k : Nat) => (ds + (k : Int), viewByte v k)) fun k hk => by
    rw [byteAt_of_lt (List.mem_range.mp hk)]
    rfl

/-- COPYR's loop from byte index i on, when what is left to write ends inside the view. -/
theorem rangeWritesFrom_eq {v : View} {ss ds : Int} (n : Nat) : ∀ (i : Nat) (rem : Int),
    i + n = bytes v.wc → 0 ≤ ss → (ss ≤ i → i + rem ≤ bytes v.wc) → (i ≤ ss → ss + rem ≤ bytes v.wc) →
    rangeWritesFrom v ss ds (List.range' i n) rem =
      .ok ((List.range rem.toNat).map fun (j : Nat) => (ds + (max ss i - ss) + (j : Int), viewByte v ((max ss i).toNat + j))) := by
  induction n with
  | zero =>
    intro i rem hn h0 h1 h2
    have : rem.toNat = 0 := by omega
    simp [rangeWritesFrom, this]
  | succ n ih =>
    intro i rem hn h0 h1 h2
    rw [List.range'_succ, rangeWritesFrom]
    by_cases h : ss ≤ i ∧ 0 < rem
    · obtain ⟨k, rfl⟩ : ∃ k : Nat, rem = k + 1 := ⟨(rem - 1).toNat, by omega⟩
      rw [if_pos h, byteAt_of_lt (by omega), ih (i + 1) _ (by omega) h0 (by omega) (by omega)]
      have e1 : max ss ((i + 1 : Nat) : Int) = i + 1 := by omega
      have e2 : max ss (i : Int) = i := by omega
      have e3 : ((k : Int) + 1).toNat = k + 1 := by omega
      have e4 : ((k : Int) + 1 - 1).toNat = k := by omega
      rw [e1, e2, e3, e4, List.range_succ_eq_map]
      simp only [bind, Except.bind, pure, Except.pure, List.map_cons, List.map_map]
      congr 1
      refine List.cons_eq_cons.mpr ⟨by simp, List.map_congr_left fun j _ => ?_⟩
      simp only [Function.comp]
      refine Prod.ext (by push_cast; omega) (congrArg (viewByte v) (by omega))
    · rw [if_neg h, ih (i + 1) rem (by omega) h0 (by omega) (by omega)]
      by_cases hr : rem ≤ 0
      · have : rem.toNat = 0 := by omega
        simp [this]
      · have e1 : max ss ((i + 1 : Nat) : Int) = ss := by omega
        have e2 : max ss (i : Int) = ss := by omega
        rw [e1, e2]

/-- COPYR's writes when its checks pass (R131): byte ss + j at ds + j, for j = 0 .. cnt - 1, and none when cnt <= 0. -/
theorem rangeWrites_eq {v : View} {ss ds cnt : Int} (h0 : 0 ≤ ss) (h1 : ss + cnt ≤ bytes v.wc) :
    rangeWrites v ss ds cnt = .ok (runOfWrites ds (fun j => viewByte v (ss.toNat + j)) cnt.toNat) := by
  rw [rangeWrites, List.range_eq_range', rangeWritesFrom_eq _ 0 cnt (by omega) h0 (by omega) (by omega)]
  have e : max ss ((0 : Nat) : Int) = ss := by omega
  simp only [e, runOfWrites, sub_self, add_zero]

/-- A run of writes keeps the canonical form. -/
theorem applyWrites_wf {ws : List Write} {m : Memory} (hm : m.wf = true) (h : ∀ w ∈ ws, w.1.toNat < Config.bufferLimit) :
    (applyWrites ws m).wf = true := by
  induction ws generalizing m with
  | nil => exact hm
  | cons w ws ih => exact ih (Memory.wf_write hm (h w (by simp)) w.2) fun x hx => h x (by simp [hx])

theorem mem_runOfWrites {ds : Int} {f : Nat → Byte} {n : Nat} {w : Write} (h : w ∈ runOfWrites ds f n) :
    ∃ k : Nat, k < n ∧ w = (ds + (k : Int), f k) := by
  obtain ⟨k, hk, rfl⟩ := List.mem_map.mp h
  exact ⟨k, List.mem_range.mp hk, rfl⟩

/-- What a buffer reads as after a run of writes: the new bytes on [ds, ds + n), and what was there everywhere else. -/
theorem applyWrites_run_read {m : Memory} (hm : m.wf = true) {ds : Nat} {f : Nat → Byte} {n : Nat}
    (hn : ds + n ≤ Config.bufferLimit) (a : Nat) :
    (applyWrites (runOfWrites ds f n) m).read a = if ds ≤ a ∧ a < ds + n then f (a - ds) else m.read a := by
  induction n with
  | zero => simp [applyWrites, runOfWrites, show ¬ (ds ≤ a ∧ a < ds) by omega]
  | succ n ih =>
    have hsplit : applyWrites (runOfWrites ds f (n + 1)) m = (applyWrites (runOfWrites ds f n) m).write (ds + n) (f n) := by
      simp only [applyWrites, runOfWrites, List.range_succ, List.map_append, List.foldl_append, List.map_cons, List.map_nil,
        List.foldl_cons, List.foldl_nil]
      congr 1
    have hwf : (applyWrites (runOfWrites ds f n) m).wf = true :=
      applyWrites_wf hm fun w hw => by
        obtain ⟨k, hk, rfl⟩ := mem_runOfWrites hw
        simp only
        omega
    rw [hsplit, Memory.read_write hwf, ih (by omega)]
    by_cases ha : a = ds + n
    · subst ha; simp
    · simp only [ha, if_false]
      by_cases hb : ds ≤ a ∧ a < ds + n
      · rw [if_pos hb, if_pos (by omega)]
      · rw [if_neg hb, if_neg (by omega)]

/-! The plans of the copies (R130, R131). -/

/-- COPY's plan when its checks pass: N bytes from ds on, each inside the buffer. -/
theorem copyPlan_of_fits {s : State} {v : View} (h : copyFits (bytes v.wc) (copyDestStart s) (lengthOperand s) = true) :
    copyPlan s v = .ok (some (runOfWrites (copyDestStart s) (viewByte v) (bytes v.wc))) ∧
      ∀ w ∈ runOfWrites (copyDestStart s) (viewByte v) (bytes v.wc), 0 ≤ w.1 ∧ w.1 < lengthOperand s := by
  refine ⟨by rw [copyPlan, if_pos h, copyWrites_eq]; rfl, fun w hw => ?_⟩
  obtain ⟨k, hk, rfl⟩ := mem_runOfWrites hw
  simp only [copyFits, Bool.and_eq_true, decide_eq_true_eq] at h
  simp only
  omega

/-- COPY's plan when a check fails: nothing is written. -/
theorem copyPlan_of_unfit {s : State} {v : View} (h : copyFits (bytes v.wc) (copyDestStart s) (lengthOperand s) = false) :
    copyPlan s v = .ok none := by simp [copyPlan, h]

/-- COPYR's plan when its checks pass: the bytes ss .. ss + cnt - 1 from ds on, each inside the buffer. -/
theorem rangePlan_of_fits {s : State} {v : View}
    (h : rangeFits (bytes v.wc) (rangeSourceStart s) (rangeDestStart s) (rangeCount s) (lengthOperand s) = true) :
    let ws := runOfWrites (rangeDestStart s) (fun j => viewByte v ((rangeSourceStart s).toNat + j)) (rangeCount s).toNat
    rangePlan s v = .ok (some ws) ∧ ∀ w ∈ ws, 0 ≤ w.1 ∧ w.1 < lengthOperand s := by
  have h' := h
  simp only [rangeFits, Bool.and_eq_true, decide_eq_true_eq] at h'
  refine ⟨by rw [rangePlan, if_pos h, rangeWrites_eq (by omega) (by omega)]; rfl, fun w hw => ?_⟩
  obtain ⟨k, hk, rfl⟩ := mem_runOfWrites hw
  simp only
  omega

/-- COPYR's plan when a check fails: nothing is written. -/
theorem rangePlan_of_unfit {s : State} {v : View}
    (h : rangeFits (bytes v.wc) (rangeSourceStart s) (rangeDestStart s) (rangeCount s) (lengthOperand s) = false) :
    rangePlan s v = .ok none := by simp [rangePlan, h]

/-- A plan whose writes are all inside the buffer is carried out whole. -/
theorem carryOut_of_in {s : State} {ws : List Write} (h : ∀ w ∈ ws, 0 ≤ w.1 ∧ w.1 < lengthOperand s) :
    carryOut s (.ok (some ws)) = respond (s.withDst (applyWrites ws s.dst)) .done := by
  simp only [carryOut, proceed_ok]
  rw [writeAll_of_in _ h]
  rfl

/-- A plan that a check refused raises IndexOutOfRange. -/
theorem carryOut_none (s : State) : carryOut s (.ok none) = raise s .indexOutOfRange := rfl

/-! The host's events (R72). -/

/-- A legal command is performed with its operands on the ports. -/
theorem runCommand_of_ok {c : Command} {i : Instr} (h : decode c.word = .ok i) (s : State) :
    runCommand c s = exec i (s.withPorts c.ports) := by simp [runCommand, h]

/-- An illegal word raises IllegalCommand. -/
theorem runCommand_of_error {c : Command} {e : DecodeError} (h : decode c.word = .error e) (s : State) :
    runCommand c s = raise (s.withPorts c.ports) .illegalCommand := by simp [runCommand, h]

/-- What one step does: it idles, or it serves the first event of the inbox. -/
theorem step_cases (s : State) :
    (s.inbox = [] ∧ step s = .next (s.withResp none)) ∨
      ∃ e rest, s.inbox = e :: rest ∧ step s = serve e (s.withInbox rest) := by
  cases h : s.inbox with
  | nil => exact .inl ⟨rfl, by simp [step, stepHost, h, idle]⟩
  | cons e rest => exact .inr ⟨e, rest, rfl, by simp [step, stepHost, h]⟩

/-! The assembler (R73). -/

/-- Laying a list out in SRC makes one write for each byte. -/
theorem placeSrc_length (bs : List Byte) : ∀ {k : Nat}, k + bs.length ≤ Config.bufferLimit → (placeSrc k bs).length = bs.length := by
  induction bs with
  | nil => intro k _; rfl
  | cons b bs ih =>
    intro k h
    simp only [List.length_cons] at h
    simp [placeSrc, show k < Config.bufferLimit by omega, ih (k := k + 1) (by omega)]

/-- The j-th write of a list laid out from k on puts its j-th byte at index k + j. -/
theorem placeSrc_getElem? (bs : List Byte) : ∀ {k : Nat}, k + bs.length ≤ Config.bufferLimit → ∀ {j : Nat} {b : Byte},
    bs[j]? = some b → ∃ h : k + j < Config.bufferLimit, (placeSrc k bs)[j]? = some (.writeSrc ⟨k + j, h⟩ b) := by
  induction bs with
  | nil => intro k _ j b h; simp at h
  | cons c bs ih =>
    intro k h j b hj
    simp only [List.length_cons] at h
    have hk : k < Config.bufferLimit := by omega
    cases j with
    | zero => simp only [List.getElem?_cons_zero, Option.some.injEq] at hj; exact ⟨hk, by simp [placeSrc, hk, hj]⟩
    | succ j =>
      obtain ⟨hl, e⟩ := ih (k := k + 1) (by omega) (by simpa using hj)
      refine ⟨by omega, ?_⟩
      simp only [placeSrc, hk, dite_true, List.cons_append, List.nil_append, List.getElem?_cons_succ, e]
      simp only [Option.some.injEq, HostEvent.writeSrc.injEq, Fin.mk.injEq, and_true]
      omega

/-- Every line ends in one command, whose word is the encoding of the command the line names. -/
theorem AsmLine.assemble_eq (l : AsmLine) : ∃ pre, l.assemble = pre ++ [.command { word := encode l.instr, ports := l.ports }] := by
  cases l with
  | ldb w g f bs => exact ⟨placeSrc 0 bs, by simp only [AsmLine.assemble]⟩
  | _ => exact ⟨[], rfl⟩

end Sys2Proof.Machine
end

