-- ==== Sys2Proof/Laws/PerInstr.lean ====
section
/-! SUPPORT. One family of facts about every command as syntax: its word has the form R61 and R68 give it. -/

namespace Sys2Proof.Laws.EncodingForm

/-- The word of a command is admitted by a row of R68's table, has no RSV bit (R65), and S is 0 outside LDV and LDB (R64). -/
def Statement (i : Instr) : Prop :=
  wordWellFormed (encode i) = true ∧ (encode i).extractLsb' 8 24 = 0#24 ∧
    match i with
    | .ldv _ _ g => (encode i).getLsbD 7 = decide (g = .signed)
    | .ldb _ _ g => (encode i).getLsbD 7 = decide (g = .signed)
    | _ => (encode i).getLsbD 7 = false

theorem shift (w : Width) (f : Format) : Statement (.shift w f) := by cases w <;> cases f <;> (unfold Statement; decide)
theorem ldv (w : Width) (f : Format) (g : Signedness) : Statement (.ldv w f g) := by
  cases w <;> cases f <;> cases g <;> (unfold Statement; decide)
theorem ldb (w : Width) (f : Format) (g : Signedness) : Statement (.ldb w f g) := by
  cases w <;> cases f <;> cases g <;> (unfold Statement; decide)
theorem byte : Statement .byte := by unfold Statement; decide
theorem count : Statement .count := by unfold Statement; decide
theorem getv : Statement .getv := by unfold Statement; decide
theorem enum : Statement .enum := by unfold Statement; decide
theorem adv : Statement .adv := by unfold Statement; decide
theorem rst : Statement .rst := by unfold Statement; decide
theorem cur : Statement .cur := by unfold Statement; decide
theorem toarr : Statement .toarr := by unfold Statement; decide
theorem tolist : Statement .tolist := by unfold Statement; decide
theorem copy : Statement .copy := by unfold Statement; decide
theorem copyr : Statement .copyr := by unfold Statement; decide

end Sys2Proof.Laws.EncodingForm
end

