-- ==== Sys2Proof/Tests/Slice0.lean ====
section
/-! SUPPORT. Tests with results written out by hand from the spec (95_test_vectors.md and the examples of the rules), the smoke tests of
the well-formedness checks, and a witness for the hypotheses of each statement. -/

namespace Sys2Proof.Tests
open Sys2Proof.Machine

/-- The next state, or nothing where a step stops. -/
def nextOf (r : Result) : Option State :=
  match r with
  | .next s => some s
  | _ => none

/-- The response of a command. -/
def respOf (r : Result) : Option Response := (nextOf r).bind (·.resp)

/-- The status and the scalar of a response. -/
def scalarOf (r : Result) : Option (Status × Word64) := (respOf r).map fun x => (x.status, x.rval)

/-- The refusal of a step. -/
def refusalOf (r : Result) : Option Refusal :=
  match r with
  | .refused x => some x
  | _ => none

/-- The view of LDV u32.be 0x12345678. -/
def viewE1 : View := { valid := true, wc := .w32, s := .unsigned, fmt := .big, value := 0x12345678 }

/-- A state with that view constructed. -/
def stView : State := { State.reset with view := viewE1 }

/-- A state with an enumerator of that view, its cursor at c. -/
def stEnum (c : Int) : State :=
  { stView with enum := { valid := true, n := .four, e := ⟨0x12, 0x34, 0x56, 0x78, 0, 0, 0, 0⟩, cur := c } }

/-- Operands with only the four 32-bit ports driven. -/
def ops (i0 i1 i2 : Int) (len : Nat) : Ports :=
  { a := 0, i0 := BitVec.ofInt 32 i0, i1 := BitVec.ofInt 32 i1, i2 := BitVec.ofInt 32 i2, len := BitVec.ofNat 32 len }

/-- DST = AA x 8. -/
def dstAA : Memory := [(0, 0xAA), (1, 0xAA), (2, 0xAA), (3, 0xAA), (4, 0xAA), (5, 0xAA), (6, 0xAA), (7, 0xAA)]

/-- The state of section 2.6: that view, and DST = AA x 8, with operands. -/
def stCopy (p : Ports) : State := { stView with dst := dstAA, ports := p }

/-- A state with these host events to come. -/
def stInbox (l : List HostEvent) : State := { stView with inbox := l }

/-! ### Decoding: words written out bit by bit from R61 and R68 -/

theorem test_decode_shift_w48_le : decode 0b000000000000000000000000_0_1_10_0001#32 = .ok (.shift .w48 .little) := by decide
theorem test_decode_shift_w64_be : decode 0b000000000000000000000000_0_0_11_0001#32 = .ok (.shift .w64 .big) := by decide
theorem test_decode_ldv_s16_le : decode 0b000000000000000000000000_1_1_00_0010#32 = .ok (.ldv .w16 .little .signed) := by decide
theorem test_decode_ldv_u32_be : decode 0b000000000000000000000000_0_0_01_0010#32 = .ok (.ldv .w32 .big .unsigned) := by decide
theorem test_decode_ldb_s48_be : decode 0b000000000000000000000000_1_0_10_0011#32 = .ok (.ldb .w48 .big .signed) := by decide
theorem test_decode_byte : decode 0b000000000000000000000000_0000_0100#32 = .ok .byte := by decide
theorem test_decode_count : decode 0b000000000000000000000000_0000_0101#32 = .ok .count := by decide
theorem test_decode_getv : decode 0b000000000000000000000000_0000_0110#32 = .ok .getv := by decide
theorem test_decode_enum : decode 0b000000000000000000000000_0000_0111#32 = .ok .enum := by decide
theorem test_decode_adv : decode 0b000000000000000000000000_0000_1000#32 = .ok .adv := by decide
theorem test_decode_rst : decode 0b000000000000000000000000_0000_1001#32 = .ok .rst := by decide
theorem test_decode_cur : decode 0b000000000000000000000000_0000_1010#32 = .ok .cur := by decide
theorem test_decode_toarr : decode 0b000000000000000000000000_0000_1011#32 = .ok .toarr := by decide
theorem test_decode_tolist : decode 0b000000000000000000000000_0000_1100#32 = .ok .tolist := by decide
theorem test_decode_copy : decode 0b000000000000000000000000_0000_1101#32 = .ok .copy := by decide
theorem test_decode_copyr : decode 0b000000000000000000000000_0000_1110#32 = .ok .copyr := by decide
theorem test_decode_reserved_bit : decode 0x80000004 = .error .reservedBits := by decide
theorem test_decode_table_word : decodeTableWord 32 0x53 = some (.ldb .w32 .little .unsigned) := by decide
theorem test_decode_table_word_too_wide : decodeTableWord 8 0x104 = none := by decide

/-! ### Well-formedness: the ill-formed words of 95_test_vectors.md section 2.7, and ill-formed assembler lines -/

theorem smoke_word_opcode_zero : wordWellFormed 0x00000000 = false := by decide
theorem smoke_word_opcode_fifteen : wordWellFormed 0x0000000F = false := by decide
theorem smoke_word_reserved_bit : wordWellFormed 0x00000104 = false := by decide
theorem smoke_word_unused_width : wordWellFormed 0x00000014 = false := by decide
theorem smoke_word_signed_shift : wordWellFormed 0x00000081 = false := by decide
theorem smoke_word_legal : wordWellFormed 0x000000F3 = true := by decide
theorem smoke_line_index_too_big : (AsmLine.byte 2147483648).wellFormed = false := by decide
theorem smoke_line_value_too_big : (AsmLine.ldv .w64 .unsigned .big 18446744073709551616).wellFormed = false := by decide
theorem smoke_line_length_too_big : (AsmLine.copy 0 4294967296).wellFormed = false := by decide
theorem smoke_line_copyr_start_too_small : (AsmLine.copyr (-2147483649) 0 0 8).wellFormed = false := by decide
theorem smoke_line_copyr_count_too_big : (AsmLine.copyr 0 0 2147483648 8).wellFormed = false := by decide
theorem smoke_memory_unsorted : Memory.wf [(3, 1), (2, 1)] = false := by decide
theorem smoke_memory_lists_a_default : Memory.wf [(3, 0)] = false := by decide
theorem smoke_memory_beyond_the_space : Memory.wf [(4294967295, 1)] = false := by decide

/-! ### The commands: 95_test_vectors.md section 2 -/

/-- R80, example: SHIFT w48.be 1 gives 32. -/
theorem test_shift_w48_be : scalarOf (exec (.shift .w48 .big) { State.reset with ports := ops 1 0 0 0 }) = some (.ok, 32) := by decide
/-- Section 2.1: SHIFT w32.be -2^31. -/
theorem test_shift_min : scalarOf (exec (.shift .w32 .big) { State.reset with ports := ops (-2147483648) 0 0 0 })
    = some (.indexOutOfRange, 0) := by decide

/-- Section 2.2: LDV s48.be 0x0000800000000000. -/
theorem test_ldv_s48 : (nextOf (exec (.ldv .w48 .big .signed) { State.reset with ports := { Ports.idle with a := 0x0000800000000000 } })).map (·.view)
    = some { valid := true, wc := .w48, s := .signed, fmt := .big, value := 0xFFFF800000000000 } := by decide
/-- Section 2.2: LDV u16.be of all ones. -/
theorem test_ldv_u16 : (nextOf (exec (.ldv .w16 .big .unsigned) { State.reset with ports := { Ports.idle with a := 0xFFFFFFFFFFFFFFFF } })).map (·.view.value)
    = some 0xFFFF := by decide

/-- Section 2.3: LDB s48.le FE FF FF FF FF FF. -/
theorem test_ldb_s48 : (nextOf (exec (.ldb .w48 .little .signed)
    { State.reset with ports := ops 0 0 0 6, src := [(0, 0xFE), (1, 0xFF), (2, 0xFF), (3, 0xFF), (4, 0xFF), (5, 0xFF)] })).map (·.view.value)
    = some 0xFFFFFFFFFFFFFFFE := by decide
/-- Section 2.3: LDB u16.be with LEN = 3. -/
theorem test_ldb_length : scalarOf (exec (.ldb .w16 .big .unsigned) { State.reset with ports := ops 0 0 0 3 })
    = some (.invalidBufferLength, 0) := by decide

/-- R94, example: BYTE 1 gives 0x34. -/
theorem test_byte : scalarOf (exec .byte { stView with ports := ops 1 0 0 0 }) = some (.ok, 0x34) := by decide
/-- Section 2.4: BYTE -1. -/
theorem test_byte_negative : scalarOf (exec .byte { stView with ports := ops (-1) 0 0 0 }) = some (.indexOutOfRange, 0) := by decide

/-- R96, example: a u48 view counts 6. -/
theorem test_count : scalarOf (exec .count { State.reset with view := { viewE1 with wc := .w48 } }) = some (.ok, 6) := by decide
/-- Section 2.7: COUNT's gate, after reset. -/
theorem test_count_after_reset : scalarOf (exec .count State.reset) = some (.uninitialized, 0) := by decide

/-- P1, step 4. -/
theorem test_getv : scalarOf (exec .getv stView) = some (.ok, 0x12345678) := by decide

/-- Section 2.5, step 1: cursor BEFORE and the bytes of the view. -/
theorem test_enum : (nextOf (exec .enum stView)).map (·.enum) = some (stEnum (-1)).enum := by decide

/-- Section 2.5, steps 3 and 10. -/
theorem test_adv_first : scalarOf (exec .adv (stEnum (-1))) = some (.ok, 1) := by decide
theorem test_adv_last : (nextOf (exec .adv (stEnum 3))).map (fun t => (t.enum.cur, t.resp.map (·.rval))) = some (4, some 0) := by decide

/-- Section 2.5, step 13. -/
theorem test_rst : (nextOf (exec .rst (stEnum 4))).map (·.enum.cur) = some (-1) := by decide

/-- Section 2.5, steps 9 and 12. -/
theorem test_cur_last : scalarOf (exec .cur (stEnum 3)) = some (.ok, 0x78) := by decide
theorem test_cur_end : scalarOf (exec .cur (stEnum 4)) = some (.invalidState, 0) := by decide

/-- E1: bytes 12 34 56 78, rcount 4. -/
theorem test_toarr : respOf (exec .toarr stView) = some ⟨.ok, 0, ⟨0x12, 0x34, 0x56, 0x78, 0, 0, 0, 0⟩, 4⟩ := by decide
/-- R116, example: u32.le gives 78 56 34 12. -/
theorem test_tolist : respOf (exec .tolist { State.reset with view := { viewE1 with fmt := .little } })
    = some ⟨.ok, 0, ⟨0x78, 0x56, 0x34, 0x12, 0, 0, 0, 0⟩, 4⟩ := by decide

/-- Section 2.6: COPY 4, len=8. -/
theorem test_copy : (nextOf (exec .copy (stCopy (ops 4 0 0 8)))).map (·.dst)
    = some [(0, 0xAA), (1, 0xAA), (2, 0xAA), (3, 0xAA), (4, 0x12), (5, 0x34), (6, 0x56), (7, 0x78)] := by decide
/-- Section 2.6: COPY 5, len=8. -/
theorem test_copy_beyond : scalarOf (exec .copy (stCopy (ops 5 0 0 8))) = some (.indexOutOfRange, 0) := by decide

/-- E7: COPYR 1, 5, 2, len=8. -/
theorem test_copyr : (nextOf (exec .copyr (stCopy (ops 1 5 2 8)))).map (·.dst)
    = some [(0, 0xAA), (1, 0xAA), (2, 0xAA), (3, 0xAA), (4, 0xAA), (5, 0x34), (6, 0x56), (7, 0xAA)] := by decide
/-- Section 2.6: COPYR 5, 0, -1, len=8 succeeds and writes nothing (D28). -/
theorem test_copyr_negative_count : (nextOf (exec .copyr (stCopy (ops 5 0 (-1) 8)))).map (fun t => (t.dst, t.resp.map (·.status)))
    = some (dstAA, some .ok) := by decide

/-! ### The step -/

/-- Section 2.7: 0x14 after reset is IllegalCommand, not Uninitialized. -/
theorem test_step_illegal_first : scalarOf (step (State.reset.withFetchWord 32 0x14)) = some (.illegalCommand, 0) := by decide
/-- Section 2.7: COPYR with I0 = -1 and I2 = 100 after reset is Uninitialized, not IndexOutOfRange. -/
theorem test_step_uninitialized_first :
    scalarOf (step { State.reset with inbox := [.command ⟨0x0E, ops (-1) 0 100 0⟩] }) = some (.uninitialized, 0) := by decide
/-- R73, example: the line LDV u32.be 0x12345678. -/
theorem test_assemble_ldv : (AsmLine.ldv .w32 .unsigned .big 0x12345678).assemble
    = [.command ⟨0x00000012, { Ports.idle with a := 0x0000000012345678 }⟩] := by decide
/-- R73, example: the line COPYR 1, 5, 2, len=8. -/
theorem test_assemble_copyr : (AsmLine.copyr 1 5 2 8).assemble = [.command ⟨0x0000000E, ops 1 5 2 8⟩] := by decide

/-! ### Witnesses: a state and operands that meet the hypotheses of each statement, at the boundaries of each clause -/

theorem witness_FieldsOfALegalWord : decode 0x71 = .ok (.shift .w64 .little) ∧ decode 0xF2 = .ok (.ldv .w64 .little .signed) ∧
    decode 0xF3 = .ok (.ldb .w64 .little .signed) ∧ decode 0x0E = .ok .copyr := by decide

theorem witness_IllegalWordsRaiseIllegalCommand :
    ((0x00#32).extractLsb' 0 4).toNat = 0x0 ∧ ((0x0F#32).extractLsb' 0 4).toNat = 0xF ∧ (0x101#32).extractLsb' 8 24 ≠ 0#24 ∧
    (((0x81#32).extractLsb' 0 4).toNat = 0x1 ∧ (0x81#32).getLsbD 7 = true) ∧
    (((0x14#32).extractLsb' 0 4).toNat = 0x4 ∧ (0x14#32).extractLsb' 4 4 ≠ 0#4) ∧
    (((0x8E#32).extractLsb' 0 4).toNat = 0xE ∧ (0x8E#32).extractLsb' 4 4 ≠ 0#4) ∧
    (stInbox [.command ⟨0x81, Ports.idle⟩]).inbox = .command ⟨0x81, Ports.idle⟩ :: [] ∧ decode 0xF3 = .ok (.ldb .w64 .little .signed) := by
  decide

theorem witness_StepRunsTheDecodedCommand :
    (stInbox [.command ⟨0x06, Ports.idle⟩, .reset]).inbox = .command ⟨0x06, Ports.idle⟩ :: [.reset] ∧ decode 0x06 = .ok .getv ∧
    decode (BitVec.ofNat 32 0xF3) = .ok (.ldb .w64 .little .signed) := by decide

theorem witness_UninitializedExactlyWhenInvalid :
    (∀ i ∈ Spec.viewReaders ++ Spec.enumReaders, (scalarOf (exec i State.reset)).map Prod.fst = some .uninitialized) ∧
    State.reset.view.valid = false ∧ State.reset.enum.valid = false := by decide

theorem witness_IdleStepChangesNoState : stView.inbox = [] := by decide

theorem witness_ResetPutsTheRegistersAtTheirValues : (stInbox [.reset, .reset]).inbox = .reset :: [.reset] := by decide

theorem witness_GatedFieldsAreNotObservable :
    ({ viewE1 with valid := false } : View).valid = false ∧ State.reset.view.valid = false ∧
    ({ (stEnum 2).enum with valid := false } : Enumerator).valid = false ∧ State.reset.enum.valid = false := by decide

theorem witness_ResetDuringACommandTearsDst :
    ({ stCopy Ports.idle with inbox := [.resetDuring ⟨0x0D, ops 4 0 0 8⟩] } : State).inbox = .resetDuring ⟨0x0D, ops 4 0 0 8⟩ :: [] ∧
    dstAA.wf = true ∧ (writesInFlight ⟨0x0D, ops 4 0 0 8⟩ (stCopy Ports.idle)).length = 4 := by decide

theorem witness_BrokenHostDutiesAreRefused :
    (stInbox [.breach ⟨0x0D, Ports.idle⟩ .lenNotTrue]).inbox = .breach ⟨0x0D, Ports.idle⟩ .lenNotTrue :: [] ∧
    decode 0x0D = .ok .copy ∧ decode 0x0E = .ok .copyr ∧ decode 0xF3 = .ok (.ldb .w64 .little .signed) ∧
    refusalOf (step (stInbox [.breach ⟨0x01, Ports.idle⟩ .secondCommand])) = some .commandWhileBusy ∧
    refusalOf (step (stInbox [.breach ⟨0x01, Ports.idle⟩ .bufferTouched])) = some .bufferTouched ∧
    refusalOf (step (stInbox [.breach ⟨0x01, Ports.idle⟩ .operandsChanged])) = some .operandsChanged ∧
    scalarOf (step (stInbox [.breach ⟨0x06, Ports.idle⟩ .lenNotTrue])) = some (.ok, 0x12345678) := by decide

theorem witness_HostWritesOneByte :
    (stInbox [.writeSrc ⟨4294967294, by decide⟩ 0x5A]).inbox = .writeSrc ⟨4294967294, by decide⟩ 0x5A :: [] ∧
    (stInbox [.writeDst ⟨0, by decide⟩ 0]).inbox = .writeDst ⟨0, by decide⟩ 0 :: [] ∧
    stView.src.wf = true ∧ stView.dst.wf = true := by decide

theorem witness_FirstCommandsThatSucceed :
    let s := { State.reset with ports := ops 7 0 0 8 }
    s.view.valid = false ∧ s.enum.valid = false ∧ 0 ≤ s.ports.i0.toInt ∧ s.ports.i0.toInt < (bytes .w64 : Int) ∧
    s.ports.len.toNat = bytes .w64 := by decide

theorem witness_RomHoldsTheShiftTable : 7 < bytes .w64 ∧ bytes .w48 ≤ 6 ∧ (romEntry .w64 .big 0).toOption = some 56 := by decide

theorem witness_RomRowsCoverEachBitOnce : 47 < 8 * bytes .w48 ∧ 5 < bytes .w48 := by decide

theorem witness_ShiftAnswersTheAmount : (ops 7 0 0 0).i0.toInt = ((7 : Nat) : Int) ∧ 7 < bytes .w64 ∧ (ops (-1) 0 0 0).i0.toInt < 0 ∧
    (bytes .w16 : Int) ≤ (ops 2 0 0 0).i0.toInt := by decide

theorem witness_StrictFortyEightRefusesNonCanonical :
    (0x1234000000000001#64).extractLsb' 48 16 ≠ 0x0000#16 ∧ (0x0000800000000000#64).extractLsb' 48 16 ≠ 0xFFFF#16 ∧
    (0xFFFF800000000000#64).extractLsb' 48 16 = 0xFFFF#16 ∧ (0xFFFF800000000000#64).getLsbD 47 = true := by decide

theorem witness_LdbLoadsTheBytesOfSrc : (ops 0 0 0 8).len.toNat = bytes .w64 ∧ (ops 0 0 0 0).len.toNat ≠ bytes .w16 ∧
    (ops 0 0 0 4294967295).len.toNat ≠ bytes .w48 := by decide

/-- The two SRCs differ at index 2, which LDB u16 does not read. -/
theorem witness_LdbReadsOnlyItsBytes : (ops 0 0 0 2).len.toNat = bytes .w16 ∧
    (∀ i < bytes .w16, Memory.read [(2, 1)] i = Memory.read [] i) ∧ Memory.read [(2, 1)] 2 ≠ Memory.read [] 2 := by decide

theorem witness_FortyEightBitLoadsExtendTheSign : (ops 0 0 0 6).len.toNat = 6 ∧
    (Memory.read [(5, 0x80)] 5).getLsbD 7 = true := by decide

theorem witness_ByteAnswersOneByte : stView.view.valid = true ∧ (ops 3 0 0 0).i0.toInt = ((3 : Nat) : Int) ∧ 3 < bytes stView.view.wc ∧
    (ops (-1) 0 0 0).i0.toInt < 0 ∧ (bytes stView.view.wc : Int) ≤ (ops 4 0 0 0).i0.toInt ∧ State.reset.view.valid = false := by decide

theorem witness_CountAnswersTheByteCount : stView.view.valid = true ∧ State.reset.view.valid = false := by decide

theorem witness_GetvAnswersTheValue : stView.view.valid = true ∧ stView.view.Canonical ∧
    ({ valid := true, wc := .w48, s := .signed, fmt := .big, value := 0xFFFF800000000000 } : View).Canonical ∧
    State.reset.view.valid = false := by decide

theorem witness_BytesAreTheStandardLayout :
    stView.view.valid = true ∧ stView.view.fmt = .big ∧ (respOf (exec .toarr stView)).isSome = true ∧
    (let v : View := { viewE1 with wc := .w48, fmt := .little }
     v.valid = true ∧ v.wc = .w48 ∧ (respOf (exec .toarr { stView with view := v })).isSome = true ∧
     (respOf (exec .toarr { stView with view := { v with wc := .w64 } })).isSome = true) := by decide

theorem witness_BytesDoNotDependOnSignedness :
    let s := { State.reset with ports := { Ports.idle with a := 0xFFFE } }
    ((nextOf (exec (.ldv .w16 .big .signed) s)).bind fun t => respOf (exec .toarr t)).isSome = true ∧
    ((nextOf (exec (.ldv .w16 .big .unsigned) s)).bind fun t => respOf (exec .toarr t)).isSome = true := by decide

theorem witness_RepresentableValuesAreKept : -(2 ^ (bits .w48 - 1)) ≤ (-(2 ^ 47) : Int) ∧ ((2 ^ 47 - 1 : Int)) < 2 ^ (bits .w48 - 1) ∧
    (0 : Int) ≤ 2 ^ 64 - 1 ∧ (2 ^ 64 - 1 : Int) < 2 ^ bits .w64 := by decide

/-- The bytes of E3 laid in SRC, and LEN = 2. -/
theorem witness_RoundTripLaw : (∀ k < bytes .w16, Memory.read [(0, 0xFF), (1, 0xFF)] k = ([0xFF, 0xFF] : List Byte).getD k 0) ∧
    (ops 0 0 0 2).len.toNat = bytes .w16 ∧ Spec.representable .w48 .signed 0xFFFF800000000000 ∧
    Spec.representable .w48 .unsigned 0x0000FFFFFFFFFFFF ∧ ¬ Spec.representable .w48 .signed 0x0000800000000000 ∧
    ¬ Spec.representable .w16 .unsigned 0x10000 := by simp [Spec.representable, ops]; decide

theorem witness_EnumTakesASnapshot : stView.view.valid = true ∧ State.reset.view.valid = false ∧
    (nextOf (exec (.ldv .w64 .big .signed) (stEnum 1))).isSome = true ∧
    (nextOf (exec (.ldb .w64 .big .signed) (stEnum 1))).isSome = true := by decide

theorem witness_AdvMovesTheCursor : (stEnum 2).enum.valid = true ∧ (stEnum 2).enum.cur + 1 < (stEnum 2).enum.n.toNat ∧
    ((stEnum 3).enum.n.toNat : Int) ≤ (stEnum 3).enum.cur + 1 ∧ ((stEnum 4).enum.n.toNat : Int) ≤ (stEnum 4).enum.cur + 1 ∧
    State.reset.enum.valid = false := by decide

theorem witness_RstReturnsToBefore : (stEnum 4).enum.valid = true ∧ State.reset.enum.valid = false := by decide

theorem witness_CurAnswersTheByteAtTheCursor : (stEnum 3).enum.valid = true ∧ (stEnum 3).enum.cur = ((3 : Nat) : Int) ∧
    3 < (stEnum 3).enum.n.toNat ∧ (stEnum (-1)).enum.cur < 0 ∧ ((stEnum 4).enum.n.toNat : Int) ≤ (stEnum 4).enum.cur ∧
    State.reset.enum.valid = false := by decide

theorem witness_CursorStateMachine : (stEnum 0).enum.valid = true ∧ 2 + 1 < (stEnum 0).enum.n.toNat ∧
    3 + 1 = (stEnum 0).enum.n.toNat := by decide

theorem witness_EnumeratorExhaustionLaw : stView.view.valid = true := by decide

theorem witness_ToarrAnswersTheBytes : stView.view.valid = true ∧ State.reset.view.valid = false := by decide

theorem witness_TolistAnswersTheBytes : stView.view.valid = true ∧ State.reset.view.valid = false := by decide

theorem witness_CopyWritesTheBytes : dstAA.wf = true ∧ stView.view.valid = true ∧ (ops 4 0 0 8).i0.toInt = ((4 : Nat) : Int) ∧
    4 + bytes stView.view.wc ≤ (ops 4 0 0 8).len.toNat ∧ (ops (-1) 0 0 8).i0.toInt < 0 ∧
    ((ops 5 0 0 8).len.toNat : Int) < (ops 5 0 0 8).i0.toInt + bytes stView.view.wc ∧ State.reset.view.valid = false := by decide

theorem witness_CopyrWritesTheRange : dstAA.wf = true ∧ stView.view.valid = true ∧
    (let p := ops 2 6 2 8
     0 ≤ p.i0.toInt ∧ 0 ≤ p.i1.toInt ∧ p.i0.toInt + p.i2.toInt ≤ (bytes stView.view.wc : Int) ∧ p.i1.toInt + p.i2.toInt ≤ (p.len.toNat : Int)) ∧
    (let p := ops 5 0 (-1) 8
     0 ≤ p.i0.toInt ∧ 0 ≤ p.i1.toInt ∧ p.i0.toInt + p.i2.toInt ≤ (bytes stView.view.wc : Int) ∧ p.i1.toInt + p.i2.toInt ≤ (p.len.toNat : Int)) ∧
    (ops (-1) 0 1 8).i0.toInt < 0 ∧ (ops 0 (-1) 1 8).i1.toInt < 0 ∧
    (bytes stView.view.wc : Int) < (ops 3 0 2 8).i0.toInt + (ops 3 0 2 8).i2.toInt ∧
    ((ops 0 7 2 8).len.toNat : Int) < (ops 0 7 2 8).i1.toInt + (ops 0 7 2 8).i2.toInt ∧ State.reset.view.valid = false := by decide

theorem witness_ErrorsArePrecise : (respOf (exec .cur (stEnum (-1)))).map (·.status) = some .invalidState := by decide

theorem witness_StatusMatrix : (respOf (exec .byte { stView with ports := ops 4 0 0 0 })).map (·.status) = some .indexOutOfRange ∧
    Status.indexOutOfRange ∈ Spec.raisable .byte := by decide

theorem witness_OnlyLoadsWriteView :
    (nextOf (exec (.ldv .w16 .big .unsigned) stView)).map (fun t => decide (t.view = stView.view)) = some false ∧
    (respOf (exec (.ldb .w16 .big .unsigned) stView)).map (·.status) = some .invalidBufferLength := by decide

theorem witness_OnlyCursorCommandsWriteEnum :
    (nextOf (exec .adv (stEnum 0))).map (fun t => decide (t.enum = (stEnum 0).enum)) = some false ∧
    (nextOf (exec .rst (stEnum 0))).map (fun t => decide (t.enum = (stEnum 0).enum)) = some false ∧
    (nextOf (exec .enum stView)).isSome = true := by decide

theorem witness_CommandsLeaveTheHostSideAlone : (nextOf (exec .toarr stView)).isSome = true := by decide

theorem witness_CopiesWriteOnlyTheirBytes : dstAA.wf = true ∧ (nextOf (exec .copy (stCopy (ops 4 0 0 8)))).isSome = true ∧
    ¬ (copyDestStart (stCopy (ops 4 0 0 8)) ≤ ((3 : Nat) : Int)) ∧ (nextOf (exec .copyr (stCopy (ops 1 5 2 8)))).isSome = true ∧
    ¬ (((7 : Nat) : Int) < rangeDestStart (stCopy (ops 1 5 2 8)) + max 0 (rangeCount (stCopy (ops 1 5 2 8)))) ∧
    (respOf (exec .copy (stCopy (ops 5 0 0 8)))).map (·.status) = some .indexOutOfRange := by decide

theorem witness_UnreadPortsHaveNoEffect :
    Spec.sameOperands .byte (ops 1 2 3 4) { ops 1 0 0 0 with a := 7 } ∧ Spec.sameOperands .copy (ops 1 2 3 4) (ops 1 0 0 4) ∧
    Spec.sameOperands .adv (ops 1 2 3 4) (ops 5 6 7 8) := by simp [Spec.sameOperands, ops]

theorem witness_EveryCommandCompletes :
    (stInbox [.command ⟨0xFFFFFFFF, Ports.idle⟩]).inbox = .command ⟨0xFFFFFFFF, Ports.idle⟩ :: [] ∧
    (respOf (step (stInbox [.command ⟨0xFFFFFFFF, Ports.idle⟩]))).map (·.status) = some .illegalCommand := by decide

/-- The invariant holds in a state with a view and an enumerator, and that state has a next one. -/
theorem witness_EveryStepKeepsTheInvariant :
    (stEnum 1).Inv ∧ (nextOf (step ((stEnum 1).withFetchWord 32 0x08))).isSome = true := by
  refine ⟨⟨by decide, by decide, by decide, by decide, ?_⟩, by decide⟩
  simp [stEnum, stView, State.reset]

theorem witness_AssemblerLinesPresentTheirCommand :
    Spec.fits32 (-2147483648) ∧ Spec.fits32 2147483647 ∧ Spec.fits64 (-9223372036854775808) ∧ Spec.fits64 18446744073709551615 ∧
    ([1, 2, 3] : List Byte).length < 2 ^ 32 ∧ 4294967295 < 2 ^ 32 := by simp [Spec.fits32, Spec.fits64]

/-- A list of N bytes, an empty list and a list of another length, each at the head of an inbox. -/
theorem witness_LdbLineLoadsItsList : (∀ bs ∈ ([[0xFF, 0xFE], [], [1, 2, 3]] : List (List Byte)), bs.length < 2 ^ 32 ∧
      (stInbox ((AsmLine.ldb .w16 .signed .big bs).assemble ++ [.reset])).src.wf = true ∧
      (stInbox ((AsmLine.ldb .w16 .signed .big bs).assemble ++ [.reset])).inbox =
        (AsmLine.ldb .w16 .signed .big bs).assemble ++ [.reset]) ∧
    ([0xFF, 0xFE] : List Byte).length = bytes .w16 ∧ ([] : List Byte).length ≠ bytes .w16 := by decide

end Sys2Proof.Tests
end

namespace Sys2Proof.Machine

/-! PROOFS of 10_state.md. First the commands again as data: what each one writes and what it answers, with no fault left in them. -/

/-- The one part of the machine that a command writes, if it writes any (R20, R21, R42). -/
inductive Commit where
  | nothing
  | view (v : View)
  | enum (e : Enumerator)
  | dst (m : Memory)

/-- The state with the write made. -/
def Commit.apply (s : State) : Commit → State
  | .nothing => s
  | .view v => s.withView v
  | .enum e => s.withEnum e
  | .dst m => s.withDst m

/-- What a command does: its write and its response. `exec_eq_effect` ties it to `exec`. -/
structure Effect where
  commit : Commit
  resp : Response

/-- The state a command leaves. -/
def Effect.next (x : Effect) (s : State) : State := (x.commit.apply s).withResp (some x.resp)

/-- An error writes nothing (R145). -/
def Effect.raise (st : Status) : Effect := ⟨.nothing, .error st⟩

/-- A command that only answers. -/
def Effect.answer (r : Response) : Effect := ⟨.nothing, r⟩

/-- The gate of a command that reads VIEW (R72). -/
def viewEffect (s : State) (k : View → Effect) : Effect := if s.view.valid then k s.view else .raise .uninitialized

/-- The gate of a command that reads ENUM (R72). -/
def enumEffect (s : State) (k : Enumerator → Effect) : Effect := if s.enum.valid then k s.enum else .raise .uninitialized

/-- A load replaces VIEW whole, by the canonical value of `x` (R90, R92). -/
def loadEffect (w : Width) (f : Format) (g : Signedness) (x : Word64) : Effect :=
  ⟨.view { valid := true, wc := w, s := g, fmt := f, value := canon w g x }, .done⟩

/-- The enumerator that ENUM makes of a view (R110). -/
def snapshot (v : View) : Enumerator := { valid := true, n := arityOf v.wc, e := .ofList (viewBytes v), cur := -1 }

/-- Where ADV puts the cursor (R111). -/
def advanced (e : Enumerator) : Int := min (e.cur + 1) e.n.toNat

/-- A copy makes its writes when its checks pass, and none when one fails (R130, R131). -/
def copyEffect (s : State) (fits : Bool) (ws : List Write) : Effect :=
  if fits then ⟨.dst (applyWrites ws s.dst), .done⟩ else .raise .indexOutOfRange

/-- COPY of a view (R130). -/
def wholeCopyEffect (s : State) (v : View) : Effect :=
  copyEffect s (copyFits (bytes v.wc) (copyDestStart s) (lengthOperand s))
    (runOfWrites (copyDestStart s) (viewByte v) (bytes v.wc))

/-- COPYR of a view (R131). -/
def rangeCopyEffect (s : State) (v : View) : Effect :=
  copyEffect s (rangeFits (bytes v.wc) (rangeSourceStart s) (rangeDestStart s) (rangeCount s) (lengthOperand s))
    (runOfWrites (rangeDestStart s) (fun j => viewByte v ((rangeSourceStart s).toNat + j)) (rangeCount s).toNat)

/-- What each command does, from every state. -/
def effect (i : Instr) (s : State) : Effect :=
  match i with
  | .shift w f =>
    if indexOperand s < 0 ∨ (bytes w : Int) ≤ indexOperand s then .raise .indexOutOfRange
    else .answer (.scalar ((BitVec.ofNat 6 (shiftAmount w f (indexOperand s).toNat)).setWidth 64))
  | .ldv w f g => loadEffect w f g (valueOperand s)
  | .ldb w f g =>
    if lengthOperand s ≠ bytes w then .raise .invalidBufferLength else loadEffect w f g (accumulated w f s.src)
  | .byte => viewEffect s fun v =>
    if indexOperand s < 0 ∨ (bytes v.wc : Int) ≤ indexOperand s then .raise .indexOutOfRange
    else .answer (.scalar ((viewByte v (indexOperand s).toNat).setWidth 64))
  | .count => viewEffect s fun v => .answer (.scalar (BitVec.ofNat 64 (bytes v.wc)))
  | .getv => viewEffect s fun v => .answer (.scalar v.value)
  | .enum => viewEffect s fun v => ⟨.enum (snapshot v), .done⟩
  | .adv => enumEffect s fun e =>
    ⟨.enum { e with cur := advanced e }, .scalar (if advanced e < e.n.toNat then 1 else 0)⟩
  | .rst => enumEffect s fun e => ⟨.enum { e with cur := -1 }, .done⟩
  | .cur => enumEffect s fun e =>
    if e.cur < 0 ∨ (e.n.toNat : Int) ≤ e.cur then .raise .invalidState
    else .answer (.scalar ((e.e.toList.getD e.cur.toNat 0).setWidth 64))
  | .toarr => viewEffect s fun v => .answer (.sequence (viewBytes v))
  | .tolist => viewEffect s fun v => .answer (.sequence (viewBytes v))
  | .copy => viewEffect s (wholeCopyEffect s)
  | .copyr => viewEffect s (rangeCopyEffect s)

/-! `exec` does what `effect` says. -/

theorem raise_eq_next (s : State) (st : Status) : raise s st = .next ((Effect.raise st).next s) := rfl

theorem readingView_eq_next {s : State} {k : View → Result} {x : View → Effect}
    (h : k s.view = .next ((x s.view).next s)) : readingView s k = .next ((viewEffect s x).next s) := by
  cases hv : s.view.valid
  · rw [readingView_invalid hv, viewEffect, hv]; rfl
  · rw [readingView_valid hv, viewEffect, hv]; exact h

theorem readingEnum_eq_next {s : State} {k : Enumerator → Result} {x : Enumerator → Effect}
    (h : k s.enum = .next ((x s.enum).next s)) : readingEnum s k = .next ((enumEffect s x).next s) := by
  cases hv : s.enum.valid
  · rw [readingEnum_invalid hv, enumEffect, hv]; rfl
  · rw [readingEnum_valid hv, enumEffect, hv]; exact h

/-- The check of an index or a length: the two sides of it answer alike. -/
theorem ite_eq_next {s : State} {p : Prop} [Decidable p] {a b : Result} {x y : Effect}
    (ha : p → a = .next (x.next s)) (hb : ¬ p → b = .next (y.next s)) :
    (if p then a else b) = .next ((if p then x else y).next s) := by
  split
  · exact ha ‹_›
  · exact hb ‹_›

theorem carryOut_copyPlan_eq_next (s : State) (v : View) :
    carryOut s (copyPlan s v) = .next ((wholeCopyEffect s v).next s) := by
  unfold wholeCopyEffect
  cases h : copyFits (bytes v.wc) (copyDestStart s) (lengthOperand s)
  · rw [copyPlan_of_unfit h, carryOut_none]; rfl
  · obtain ⟨hplan, hin⟩ := copyPlan_of_fits h
    rw [hplan, carryOut_of_in hin]; rfl

theorem carryOut_rangePlan_eq_next (s : State) (v : View) :
    carryOut s (rangePlan s v) = .next ((rangeCopyEffect s v).next s) := by
  unfold rangeCopyEffect
  cases h : rangeFits (bytes v.wc) (rangeSourceStart s) (rangeDestStart s) (rangeCount s) (lengthOperand s)
  · rw [rangePlan_of_unfit h, carryOut_none]; rfl
  · obtain ⟨hplan, hin⟩ := rangePlan_of_fits h
    rw [hplan, carryOut_of_in hin]; rfl

/-- Every command, from every state, answers a next state: its effect. -/
theorem exec_eq_effect (i : Instr) (s : State) : exec i s = .next ((effect i s).next s) := by
  cases i with simp only [exec, effect]
  | shift w f =>
    refine ite_eq_next (fun _ => rfl) fun h => ?_
    rw [romEntry_of_lt (by omega)]; rfl
  | ldv w f g => rfl
  | ldb w f g =>
    refine ite_eq_next (fun _ => rfl) fun h => ?_
    rw [not_not.mp h, loadAll_eq]; rfl
  | byte =>
    refine readingView_eq_next (ite_eq_next (fun _ => rfl) fun h => ?_)
    rw [byteAt_of_lt (by omega)]; rfl
  | count => exact readingView_eq_next rfl
  | getv => exact readingView_eq_next rfl
  | enum => exact readingView_eq_next (by rw [bytesOf_eq]; rfl)
  | adv => exact readingEnum_eq_next rfl
  | rst => exact readingEnum_eq_next rfl
  | cur =>
    refine readingEnum_eq_next (ite_eq_next (fun _ => rfl) fun h => ?_)
    have hn := arity_le s.enum.n
    rw [laneAt_of_lt (by omega)]; rfl
  | toarr => exact readingView_eq_next (by rw [bytesOf_eq]; rfl)
  | tolist => exact readingView_eq_next (by rw [bytesOf_eq]; rfl)
  | copy => exact readingView_eq_next (carryOut_copyPlan_eq_next s s.view)
  | copyr => exact readingView_eq_next (carryOut_rangePlan_eq_next s s.view)

/-- The next state of a command is the one its effect gives. -/
theorem eq_next_of_exec {i : Instr} {s t : State} (h : exec i s = .next t) : t = (effect i s).next s :=
  Host.Outcome.next.inj (h.symm.trans (exec_eq_effect i s))

@[simp] theorem Effect.next_resp (x : Effect) (s : State) : (x.next s).resp = some x.resp := rfl

/-! What a command can do, said once for all fourteen. -/

/-- The kinds of effect, each with the commands that have it. -/
inductive EffectKind (i : Instr) (s : State) : Effect → Prop where
  /-- It raises an error. -/
  | raised (st : Status) (hst : st ≠ .ok) : EffectKind i s (.raise st)
  /-- It answers OK and writes nothing. -/
  | answered (r : Response) (hst : r.status = .ok) (hcount : r.rcount.toNat ≤ 8) : EffectKind i s (.answer r)
  /-- LDV and LDB replace VIEW. -/
  | loaded (w : Width) (f : Format) (g : Signedness) (x : Word64) (hi : i = .ldv w f g ∨ i = .ldb w f g) :
      EffectKind i s (loadEffect w f g x)
  /-- ENUM replaces ENUM. -/
  | snapshotTaken (hi : i = .enum) : EffectKind i s ⟨.enum (snapshot s.view), .done⟩
  /-- ADV and RST move the cursor. -/
  | cursorMoved (c : Int) (v : Word64) (hi : i = .adv ∨ i = .rst) (hc : c = advanced s.enum ∨ c = -1) :
      EffectKind i s ⟨.enum { s.enum with cur := c }, .scalar v⟩
  /-- COPY and COPYR write DST, inside [0, LEN). -/
  | copied (ws : List Write) (hi : i = .copy ∨ i = .copyr) (hin : ∀ w ∈ ws, 0 ≤ w.1 ∧ w.1 < lengthOperand s) :
      EffectKind i s ⟨.dst (applyWrites ws s.dst), .done⟩

section
variable {i : Instr} {s : State}

theorem EffectKind.scalar (v : Word64) : EffectKind i s (.answer (.scalar v)) := .answered _ rfl (Nat.zero_le 8)

theorem EffectKind.sequence (v : View) : EffectKind i s (.answer (.sequence (viewBytes v))) := by
  refine .answered _ rfl ?_
  have := bytes_le v.wc
  simp only [Response.sequence, viewBytes_length, BitVec.toNat_ofNat]
  omega

theorem EffectKind.of_viewEffect {k : View → Effect} (h : EffectKind i s (k s.view)) : EffectKind i s (viewEffect s k) := by
  unfold viewEffect
  split
  · exact h
  · exact .raised _ (by decide)

theorem EffectKind.of_enumEffect {k : Enumerator → Effect} (h : EffectKind i s (k s.enum)) :
    EffectKind i s (enumEffect s k) := by
  unfold enumEffect
  split
  · exact h
  · exact .raised _ (by decide)

/-- A command that checks an operand first raises an error or goes on. -/
theorem EffectKind.checked {p : Prop} [Decidable p] {st : Status} {x : Effect} (hst : st ≠ .ok) (h : EffectKind i s x) :
    EffectKind i s (if p then .raise st else x) := by
  split
  · exact .raised st hst
  · exact h

theorem EffectKind.of_copyEffect {fits : Bool} {ws : List Write} (hi : i = .copy ∨ i = .copyr)
    (hin : fits = true → ∀ w ∈ ws, 0 ≤ w.1 ∧ w.1 < lengthOperand s) : EffectKind i s (copyEffect s fits ws) := by
  unfold copyEffect
  split
  · exact .copied ws hi (hin ‹_›)
  · exact .raised _ (by decide)

end

/-- The effect of every command is of one of these kinds. -/
theorem effect_kind (i : Instr) (s : State) : EffectKind i s (effect i s) := by
  cases i with simp only [effect]
  | shift w f => exact .checked (by decide) (.scalar _)
  | ldv w f g => exact .loaded w f g _ (.inl rfl)
  | ldb w f g => exact .checked (by decide) (.loaded w f g _ (.inr rfl))
  | byte => exact .of_viewEffect (.checked (by decide) (.scalar _))
  | count => exact .of_viewEffect (.scalar _)
  | getv => exact .of_viewEffect (.scalar _)
  | enum => exact .of_viewEffect (.snapshotTaken rfl)
  | adv => exact .of_enumEffect (.cursorMoved _ _ (.inl rfl) (.inl rfl))
  | rst => exact .of_enumEffect (.cursorMoved _ _ (.inr rfl) (.inr rfl))
  | cur => exact .of_enumEffect (.checked (by decide) (.scalar _))
  | toarr => exact .of_viewEffect (.sequence _)
  | tolist => exact .of_viewEffect (.sequence _)
  | copy => exact .of_viewEffect (.of_copyEffect (.inl rfl) fun h => (copyPlan_of_fits h).2)
  | copyr => exact .of_viewEffect (.of_copyEffect (.inr rfl) fun h => (rangePlan_of_fits h).2)

/-- What a command that answered `t` has done. -/
theorem exec_inversion {i : Instr} {s t : State} (h : exec i s = .next t) :
    ∃ x, EffectKind i s x ∧ t = x.next s :=
  ⟨effect i s, effect_kind i s, eq_next_of_exec h⟩

/-! The canonical value (R22). -/

theorem bits_pos (w : Width) : 0 < bits w := by cases w <;> decide

theorem bits_le (w : Width) : bits w ≤ 64 := by cases w <;> decide

/-- The bits of the canonical value: those of `x` below W, and above them the sign bit or 0. -/
theorem getLsbD_canon (w : Width) (g : Signedness) (x : Word64) {b : Nat} (hb : b < 64) :
    (canon w g x).getLsbD b = if b < bits w then x.getLsbD b else decide (g = .signed) && x.getLsbD (bits w - 1) := by
  have hpos := bits_pos w
  cases g
  · by_cases h : b < bits w <;> simp [canon, h, hb]
  · by_cases h : b < bits w <;> simp [canon, BitVec.getElem_signExtend, BitVec.msb_eq_getLsbD_last, h, hb, hpos]

/-- The canonical value is canonical. -/
theorem canon_canon (w : Width) (g : Signedness) (x : Word64) : canon w g (canon w g x) = canon w g x := by
  have hpos := bits_pos w
  have hle := bits_le w
  refine BitVec.eq_of_getLsbD_eq fun b hb => ?_
  rw [getLsbD_canon w g _ hb, getLsbD_canon w g x hb, getLsbD_canon w g x (by omega)]
  by_cases h : b < bits w <;> simp [h, hpos]

/-! The invariant (R21, R22, R27, R145). -/

theorem Response.sound_error (st : Status) : (Response.error st).Sound := ⟨Nat.zero_le 8, fun _ => rfl⟩

theorem Response.sound_of_ok {r : Response} (hst : r.status = .ok) (hcount : r.rcount.toNat ≤ 8) : r.Sound :=
  ⟨hcount, fun h => absurd hst h⟩

theorem Response.sound_scalar (v : Word64) : (Response.scalar v).Sound := Response.sound_of_ok rfl (Nat.zero_le 8)

/-- What a command writes and answers is sound. -/
def Effect.Sound (x : Effect) : Prop :=
  x.resp.Sound ∧
    match x.commit with
    | .nothing => True
    | .view v => v.Canonical
    | .enum e => e.InRange
    | .dst m => m.wf = true

/-- A sound effect keeps the invariant. -/
theorem Effect.Sound.next_inv {x : Effect} (hx : x.Sound) {s : State} (hs : s.Inv) : (x.next s).Inv := by
  obtain ⟨commit, r⟩ := x
  obtain ⟨hview, henum, hsrc, hdst, -⟩ := hs
  obtain ⟨hr, hcommit⟩ := hx
  have hresp : ∀ r' ∈ some r, r'.Sound := fun r' h => Option.some.inj h ▸ hr
  cases commit with
  | nothing => exact ⟨hview, henum, hsrc, hdst, hresp⟩
  | view v => exact ⟨hcommit, henum, hsrc, hdst, hresp⟩
  | enum e => exact ⟨hview, hcommit, hsrc, hdst, hresp⟩
  | dst m => exact ⟨hview, henum, hsrc, hcommit, hresp⟩

/-- A new enumerator has the cursor BEFORE and no byte beyond the view's. -/
theorem snapshot_inRange (v : View) : (snapshot v).InRange := by
  refine ⟨le_refl _, by simp only [snapshot]; omega, fun k hk hn => ?_⟩
  have hlen : (viewBytes v).length ≤ k := by rw [viewBytes_length]; exact hn
  simp only [snapshot]
  rw [ofList_lane _ hk, List.getD_eq_default _ _ hlen]

/-- ADV and RST keep the cursor between BEFORE and END. -/
theorem cursorMoved_inRange {e : Enumerator} (he : e.InRange) {c : Int} (hc : c = advanced e ∨ c = -1) :
    ({ e with cur := c } : Enumerator).InRange := by
  obtain ⟨hlow, hhigh, hlanes⟩ := he
  have hcur : -1 ≤ c ∧ c ≤ e.n.toNat := by unfold advanced at hc; omega
  exact ⟨hcur.1, hcur.2, hlanes⟩

/-- An index inside a buffer is one a buffer can have (R7). -/
theorem toNat_lt_bufferLimit {a : Int} {len : Word32} (h : a < len.toNat) : a.toNat < Config.bufferLimit := by
  have := len.isLt
  unfold Config.bufferLimit
  omega

/-- Every command keeps the invariant: what it does is sound in a state that meets it. -/
theorem EffectKind.sound {i : Instr} {s : State} {x : Effect} (h : EffectKind i s x) (hs : s.Inv) : x.Sound := by
  obtain ⟨-, henum, -, hdst, -⟩ := hs
  cases h with
  | raised st hst => exact ⟨Response.sound_error _, trivial⟩
  | answered r hst hcount => exact ⟨Response.sound_of_ok hst hcount, trivial⟩
  | loaded w f g x hi => exact ⟨Response.sound_scalar 0, fun _ => (canon_canon w g x).symm⟩
  | snapshotTaken hi => exact ⟨Response.sound_scalar 0, snapshot_inRange s.view⟩
  | cursorMoved c v hi hc => exact ⟨Response.sound_scalar v, cursorMoved_inRange henum hc⟩
  | copied ws hi hin =>
    exact ⟨Response.sound_scalar 0,
      applyWrites_wf hdst fun w hw => toNat_lt_bufferLimit (hin w hw).2⟩

/-- A command presented to the block answers a next state: an illegal word raises IllegalCommand, a legal one does what its command
does (R72, R143). -/
theorem runCommand_effect (c : Command) (s : State) :
    ∃ x : Effect, runCommand c s = .next (x.next (s.withPorts c.ports)) ∧
      (x = .raise .illegalCommand ∨ ∃ i, EffectKind i (s.withPorts c.ports) x) := by
  cases h : decode c.word with
  | error e => exact ⟨_, (runCommand_of_error h s).trans (raise_eq_next _ _), .inl rfl⟩
  | ok i => exact ⟨_, (runCommand_of_ok h s).trans (exec_eq_effect i _), .inr ⟨i, effect_kind i _⟩⟩

theorem runCommand_inv {c : Command} {s t : State} (hs : s.Inv) (h : runCommand c s = .next t) : t.Inv := by
  obtain ⟨x, hx, hkind⟩ := runCommand_effect c s
  obtain rfl := Host.Outcome.next.inj (hx.symm.trans h)
  have hp : (s.withPorts c.ports).Inv := hs
  have hsound : x.Sound := by
    rcases hkind with rfl | ⟨i, hi⟩
    · exact ⟨Response.sound_error _, trivial⟩
    · exact hi.sound hp
  exact hsound.next_inv hp

/-- The writes of a copy's plan are inside the buffer. -/
theorem copyPlan_inside {s : State} {v : View} {ws : List Write} (h : copyPlan s v = .ok (some ws)) :
    ∀ w ∈ ws, 0 ≤ w.1 ∧ w.1 < lengthOperand s := by
  cases hf : copyFits (bytes v.wc) (copyDestStart s) (lengthOperand s)
  · simp [copyPlan_of_unfit hf] at h
  · obtain ⟨hplan, hin⟩ := copyPlan_of_fits hf
    obtain rfl : _ = ws := by simpa [hplan] using h
    exact hin

theorem rangePlan_inside {s : State} {v : View} {ws : List Write} (h : rangePlan s v = .ok (some ws)) :
    ∀ w ∈ ws, 0 ≤ w.1 ∧ w.1 < lengthOperand s := by
  cases hf : rangeFits (bytes v.wc) (rangeSourceStart s) (rangeDestStart s) (rangeCount s) (lengthOperand s)
  · simp [rangePlan_of_unfit hf] at h
  · obtain ⟨hplan, hin⟩ := rangePlan_of_fits hf
    obtain rfl : _ = ws := by simpa [hplan] using h
    exact hin

/-- The writes a reset can tear are inside the buffer (R162). -/
theorem writesInFlight_inside (c : Command) (s : State) : ∀ w ∈ writesInFlight c s, 0 ≤ w.1 ∧ w.1 < c.ports.len.toNat := by
  intro w hw
  simp only [writesInFlight] at hw
  split at hw
  case h_2 => simp at hw
  case h_1 ws hplan =>
    split at hplan
    · split at hplan
      · exact copyPlan_inside hplan w hw
      · simp at hplan
    · split at hplan
      · exact rangePlan_inside hplan w hw
      · simp at hplan
    · simp at hplan

/-- Tearing keeps the canonical form of DST, whatever is chosen. -/
theorem tearWrites_wf {k : Nat} {ws : List Write} {m : Memory} (hm : m.wf = true)
    (h : ∀ w ∈ ws, w.1.toNat < Config.bufferLimit) : (tearWrites k ws m).wf = true := by
  induction ws generalizing m with
  | nil => exact hm
  | cons w ws ih =>
    have hrest : ∀ x ∈ ws, x.1.toNat < Config.bufferLimit := fun x hx => h x (by simp [hx])
    simp only [tearWrites, List.foldl_cons]
    split
    · exact ih (Memory.wf_write hm (h w (by simp)) w.2) hrest
    · exact ih hm hrest

theorem serveBreach_next {c : Command} {b : Breach} {s t : State} (h : serveBreach c b s = .next t) :
    runCommand c s = .next t := by
  cases b with
  | lenNotTrue =>
    simp only [serveBreach] at h
    split at h
    · cases h
    · exact h
  | _ => cases h

/-- The registers after reset meet R21 and R22. -/
theorem reset_registers : View.reset.Canonical ∧ Enumerator.reset.InRange := by decide

theorem sound_of_mem_none {r : Response} : r ∈ (none : Option Response) → r.Sound := fun h => by simp at h

/-- Every host event keeps the invariant. -/
theorem serve_inv {e : HostEvent} {s t : State} (hs : s.Inv) (h : serve e s = .next t) : t.Inv := by
  have ⟨hview, henum, hsrc, hdst, _⟩ := hs
  cases e with
  | command c => exact runCommand_inv hs h
  | writeSrc i b =>
    obtain rfl := Host.Outcome.next.inj h
    exact ⟨hview, henum, Memory.wf_write hsrc i.isLt b, hdst, fun _ => sound_of_mem_none⟩
  | writeDst i b =>
    obtain rfl := Host.Outcome.next.inj h
    exact ⟨hview, henum, hsrc, Memory.wf_write hdst i.isLt b, fun _ => sound_of_mem_none⟩
  | reset =>
    obtain rfl := Host.Outcome.next.inj h
    exact ⟨reset_registers.1, reset_registers.2, hsrc, hdst, fun _ => sound_of_mem_none⟩
  | resetDuring c =>
    obtain rfl := Host.Outcome.next.inj h
    refine ⟨reset_registers.1, reset_registers.2, hsrc, tearWrites_wf hdst fun w hw => ?_, fun _ => sound_of_mem_none⟩
    exact toNat_lt_bufferLimit (writesInFlight_inside c s w hw).2
  | breach c b => exact runCommand_inv hs (serveBreach_next h)

/-- Settles O52: idling writes nothing, and every host event keeps the invariant. -/
theorem everyStepKeepsTheInvariant : Obligations.EveryStepKeepsTheInvariant := by
  intro s t hs h
  rcases step_cases s with ⟨-, e⟩ | ⟨e, rest, -, hstep⟩
  · obtain rfl := Host.Outcome.next.inj (e.symm.trans h)
    obtain ⟨hview, henum, hsrc, hdst, -⟩ := hs
    exact ⟨hview, henum, hsrc, hdst, fun _ => sound_of_mem_none⟩
  · have hrest : (s.withInbox rest).Inv := hs
    exact serve_inv hrest (hstep.symm.trans h)

/-- Settles O51: empty buffers, no response, and the registers' reset values. -/
theorem invariantHoldsAtReset : Obligations.InvariantHoldsAtReset :=
  ⟨reset_registers.1, reset_registers.2, Memory.wf_nil, Memory.wf_nil, fun _ => sound_of_mem_none⟩

/-! Who writes what (R20, R21, R34). -/

/-- An error writes nothing. -/
theorem EffectKind.commit_of_error {i : Instr} {s : State} {x : Effect} (h : EffectKind i s x) (hne : x.resp.status ≠ .ok) :
    x.commit = .nothing := by
  cases h with
  | raised st hst => rfl
  | answered r hst hcount => rfl
  | loaded | snapshotTaken | cursorMoved | copied => exact absurd rfl hne

/-- A load raises InvalidBufferLength or replaces VIEW. -/
theorem effect_of_load {i : Instr} {w : Width} {f : Format} {g : Signedness} (hi : i = .ldv w f g ∨ i = .ldb w f g) (s : State) :
    effect i s = .raise .invalidBufferLength ∨ ∃ x, effect i s = loadEffect w f g x := by
  rcases hi with rfl | rfl
  · exact .inr ⟨_, rfl⟩
  · simp only [effect]
    split
    · exact .inl rfl
    · exact .inr ⟨_, rfl⟩

/-- Settles O44: of the kinds of effect only a load writes VIEW, and the value it writes is canonical. -/
theorem onlyLoadsWriteView : Obligations.OnlyLoadsWriteView := by
  refine ⟨fun i s t h hne => ?_, fun i w f g s t r hi h hr => ?_⟩
  · obtain ⟨x, hx, rfl⟩ := exec_inversion h
    cases hx with
    | loaded w f g y hi => exact ⟨w, f, g, hi⟩
    | raised | answered | snapshotTaken | cursorMoved | copied => exact absurd rfl hne
  · obtain rfl := eq_next_of_exec h
    rw [Effect.next_resp] at hr
    obtain rfl := Option.some.inj hr
    rcases effect_of_load hi s with e | ⟨x, e⟩ <;> rw [e]
    · exact ⟨fun hok => absurd hok (by decide), fun _ => rfl⟩
    · exact ⟨fun _ => congrArg (View.mk true w g f) (canon_canon w g x).symm, fun hne => absurd rfl hne⟩

theorem viewBytes_getD (v : View) (k : Nat) : (viewBytes v).getD k 0 = if k < bytes v.wc then viewByte v k else 0 := by
  by_cases h : k < bytes v.wc <;> simp [viewBytes, List.getD_eq_getElem?_getD, h]

/-- The lanes that ENUM, TOARR and TOLIST fill with the bytes of a view (R110, R115). -/
theorem ofList_viewBytes (v : View) : Lanes.ofList (viewBytes v) = Spec.lanes (viewByte v) (bytes v.wc) := by
  simp only [Lanes.ofList, Spec.lanes, viewBytes_getD]

theorem effect_enum_of_valid {s : State} (h : s.view.valid = true) : effect .enum s = ⟨.enum (snapshot s.view), .done⟩ := by
  simp [effect, viewEffect, h]

/-- Settles O45: of the kinds of effect only a snapshot and a moved cursor write ENUM. -/
theorem onlyCursorCommandsWriteEnum : Obligations.OnlyCursorCommandsWriteEnum := by
  refine ⟨fun i s t h hne => ?_, fun i s t hi h => ?_, fun s t h hv => ?_⟩
  · obtain ⟨x, hx, rfl⟩ := exec_inversion h
    cases hx with
    | snapshotTaken hi => exact .inl hi
    | cursorMoved c v hi hc => exact .inr hi
    | raised | answered | loaded | copied => exact absurd rfl hne
  · obtain ⟨x, hx, rfl⟩ := exec_inversion h
    cases hx with
    | snapshotTaken hi' => subst hi'; simp at hi
    | raised | answered | loaded | cursorMoved | copied => rfl
  · obtain rfl := eq_next_of_exec h
    rw [effect_enum_of_valid hv]
    exact ⟨rfl, rfl, ofList_viewBytes s.view, rfl⟩

theorem step_of_command {s : State} {c : Command} {rest : List HostEvent} (h : s.inbox = .command c :: rest) :
    step s = runCommand c (s.withInbox rest) := by
  simp [step, stepHost, h, serve]

/-- Settles O49: a command's effect is total, and an error writes nothing. -/
theorem everyCommandCompletes : Obligations.EveryCommandCompletes := by
  intro s c rest h
  obtain ⟨x, hx, hkind⟩ := runCommand_effect c (s.withInbox rest)
  refine ⟨_, x.resp, (step_of_command h).trans hx, x.next_resp _, fun hne => ?_⟩
  have hcommit : x.commit = .nothing := by
    rcases hkind with rfl | ⟨i, hi⟩
    · rfl
    · exact hi.commit_of_error hne
  simp only [Effect.next, hcommit]
  rfl

/-- No host event ends in a fault: a command has an effect, and the rest only writes or is refused. -/
theorem serve_ne_fault (e : HostEvent) (s : State) (r : Fault) : serve e s ≠ .fault r := by
  have hrun (c : Command) : runCommand c s ≠ .fault r := by
    obtain ⟨x, hx, -⟩ := runCommand_effect c s
    simp [hx]
  cases e with
  | command c => exact hrun c
  | writeSrc | writeDst | reset | resetDuring => nofun
  | breach c b =>
    cases b with
    | secondCommand | bufferTouched | operandsChanged => nofun
    | lenNotTrue =>
      simp only [serve, serveBreach]
      split
      · nofun
      · exact hrun c

/-- Settles O50: neither idling nor any host event ends in a fault. -/
theorem noStepFaults : Obligations.NoStepFaults := by
  intro s r
  rcases step_cases s with ⟨-, e⟩ | ⟨e, rest, -, e'⟩
  · simp [e]
  · rw [e']
    exact serve_ne_fault e _ r

/-! The gated fields (R33): a command sees a register only through its gate. -/

theorem viewEffect_congr {s s' : State} (h : s'.view = s.view ∨ (s'.view.valid = false ∧ s.view.valid = false))
    (k : View → Effect) : viewEffect s' k = viewEffect s k := by
  rcases h with h | ⟨h', h⟩
  · simp [viewEffect, h]
  · simp [viewEffect, h, h']

theorem enumEffect_congr {s s' : State} (h : s'.enum = s.enum ∨ (s'.enum.valid = false ∧ s.enum.valid = false))
    (k : Enumerator → Effect) : enumEffect s' k = enumEffect s k := by
  rcases h with h | ⟨h', h⟩
  · simp [enumEffect, h]
  · simp [enumEffect, h, h']

/-- A command does the same with other values in gated fields. -/
theorem effect_gated (i : Instr) {s : State} {v : View} {e : Enumerator}
    (hv : v = s.view ∨ (v.valid = false ∧ s.view.valid = false))
    (he : e = s.enum ∨ (e.valid = false ∧ s.enum.valid = false)) :
    effect i ((s.withView v).withEnum e) = effect i s := by
  cases i with simp only [effect]
  | shift | ldv | ldb => rfl
  | byte | count | getv | enum | toarr | tolist | copy | copyr => exact viewEffect_congr hv _
  | adv | rst | cur => exact enumEffect_congr he _

/-- Settles O10: both runs have one effect, so they differ afterwards at most where they differed before. -/
theorem gatedFieldsAreNotObservable : Obligations.GatedFieldsAreNotObservable := by
  intro i s v e hv he
  refine ⟨_, _, exec_eq_effect i s, exec_eq_effect i ((s.withView v).withEnum e), ?_⟩
  rw [effect_gated i hv he]
  obtain ⟨commit, r⟩ := effect i s
  cases commit with
  | nothing => exact ⟨rfl, rfl, hv, he⟩
  | view v' => exact ⟨rfl, rfl, .inl rfl, he⟩
  | enum e' => exact ⟨rfl, rfl, hv, .inl rfl⟩
  | dst m => exact ⟨rfl, rfl, hv, he⟩

/-! The shift table (R24, R25, R26). -/

theorem shiftAmount_le (w : Width) (f : Format) {i : Nat} (h : i < bytes w) : shiftAmount w f i ≤ 56 := by
  have := bytes_le w
  cases f <;> simp only [shiftAmount] <;> omega

/-- A cell of the ROM exists exactly below N, and holds the amount of R24. -/
theorem romEntry_eq_ok_iff {w : Width} {f : Format} {i : Nat} {e : BitVec 6} :
    romEntry w f i = .ok e ↔ i < bytes w ∧ e.toNat = shiftAmount w f i := by
  by_cases h : i < bytes w
  · rw [romEntry_of_lt h, Except.ok.injEq, ← BitVec.toNat_inj, romEntry_toNat h]
    simp [h, eq_comm]
  · simp [romEntry_of_ge (Nat.not_lt.mp h), h]

theorem exists_romEntry (w : Width) (f : Format) {i : Nat} (h : i < bytes w) :
    ∃ e, romEntry w f i = .ok e ∧ e.toNat = shiftAmount w f i ∧ e.toNat ≤ 56 :=
  ⟨_, romEntry_of_lt h, romEntry_toNat h, (romEntry_toNat h).trans_le (shiftAmount_le w f h)⟩

/-- The rows written out in R25 are those of the construction formula. -/
theorem romRow_eq (w : Width) (f : Format) : Spec.romRow w f = (List.range (bytes w)).map (shiftAmount w f) := by
  cases w <;> cases f <;> rfl

/-- Settles O15: the ROM, the formula and the written table agree cell by cell. -/
theorem romHoldsTheShiftTable : Obligations.RomHoldsTheShiftTable := by
  refine ⟨fun w i h => exists_romEntry w .big h, fun w i h => exists_romEntry w .little h, fun w f i h e he => ?_,
    fun w f => by simp [romRow_eq], fun w f i e he => ?_⟩
  · rw [romEntry_of_ge h] at he
    cases he
  · obtain ⟨hi, hsh⟩ := romEntry_eq_ok_iff.mp he
    simp [romRow_eq, hi, hsh]

/-- The two formats mirror each other. -/
theorem shiftAmount_mirror {w : Width} {i : Nat} (h : i < bytes w) :
    shiftAmount w .little i = shiftAmount w .big (bytes w - 1 - i) := by
  simp only [shiftAmount]
  omega

/-- The entries of a row are the multiples of 8 below 8N, in rising order (Little) or falling (Big). -/
theorem map_shiftAmount_perm (w : Width) (f : Format) :
    ((List.range (bytes w)).map (shiftAmount w f)).Perm ((List.range (bytes w)).map (· * 8)) := by
  cases f with
  | little => exact .refl _
  | big =>
    have hrev : (List.range (bytes w)).map (shiftAmount w .big) = ((List.range (bytes w)).map (· * 8)).reverse := by
      rw [← List.map_reverse, List.range_eq_range', List.reverse_range']
      simp [shiftAmount, Function.comp_def, List.range_eq_range']
    rw [hrev]
    exact List.reverse_perm _

/-- Exactly one byte position covers a bit below 8N. -/
theorem existsUnique_shiftAmount (w : Width) (f : Format) {b : Nat} (hb : b < 8 * bytes w) :
    ∃! i, i < bytes w ∧ shiftAmount w f i ≤ b ∧ b < shiftAmount w f i + 8 := by
  cases f with
  | little =>
    refine ⟨b / 8, ?_, fun j hj => ?_⟩ <;> simp only [shiftAmount] at * <;> omega
  | big =>
    refine ⟨bytes w - 1 - b / 8, ?_, fun j hj => ?_⟩ <;> simp only [shiftAmount] at * <;> omega

/-- Settles O16: the entries are the shift amounts of the formula, for which the three facts hold. -/
theorem romRowsCoverEachBitOnce : Obligations.RomRowsCoverEachBitOnce := by
  refine ⟨fun w f => ?_, fun w i h => ?_, fun w f b hb => ?_⟩
  · refine ⟨_, mapM_ok fun i hi => romEntry_of_lt (List.mem_range.mp hi), ?_⟩
    have hrow : ((List.range (bytes w)).map fun i => BitVec.ofNat 6 (shiftAmount w f i)).map BitVec.toNat
        = (List.range (bytes w)).map (shiftAmount w f) := by
      rw [List.map_map]
      exact List.map_congr_left fun i hi => romEntry_toNat (List.mem_range.mp hi)
    rw [hrow]
    exact map_shiftAmount_perm w f
  · rw [romEntry_of_lt h, romEntry_of_lt (by omega), shiftAmount_mirror h]
  · have hcover (i : Nat) : (i < bytes w ∧ ∃ e, romEntry w f i = .ok e ∧ e.toNat ≤ b ∧ b < e.toNat + 8) ↔
        i < bytes w ∧ shiftAmount w f i ≤ b ∧ b < shiftAmount w f i + 8 := by
      refine and_congr_right fun hi => ⟨fun ⟨e, he, hlow, hhigh⟩ => ?_, fun h => ?_⟩
      · rw [(romEntry_eq_ok_iff.mp he).2] at hlow hhigh
        exact ⟨hlow, hhigh⟩
      · obtain ⟨e, he, hsh, -⟩ := exists_romEntry w f hi
        exact ⟨e, he, hsh ▸ h⟩
    simp only [hcover]
    exact existsUnique_shiftAmount w f hb

end Sys2Proof.Machine

namespace Sys2Proof.Machine

/-! PROOFS of 20_memory.md. The host's own writes (R40, R49, R51). -/

theorem step_of_event {s : State} {e : HostEvent} {rest : List HostEvent} (h : s.inbox = e :: rest) :
    step s = serve e (s.withInbox rest) := by
  simp [step, stepHost, h]

/-- Settles O13: the step is one `Memory.write`, and a read after it is `Memory.read_write`. -/
theorem hostWritesOneByte : Obligations.HostWritesOneByte :=
  ⟨fun s i b _ h hwf => ⟨s.src.write i.val b, step_of_event h, fun a => Memory.read_write hwf i.val a b⟩,
    fun s i b _ h hwf => ⟨s.dst.write i.val b, step_of_event h, fun a => Memory.read_write hwf i.val a b⟩⟩

/-! What LDB reads of SRC (R41). -/

/-- The accumulator of LDB depends on the first N bytes of SRC only. -/
theorem accumulated_congr {w : Width} (f : Format) {m m' : Memory} (h : ∀ i < bytes w, m.read i = m'.read i) :
    accumulated w f m = accumulated w f m' :=
  List.foldl_ext _ _ _ fun acc i hi => by rw [h i (List.mem_range.mp hi)]

theorem effect_ldb_withSrc {w : Width} (f : Format) (g : Signedness) {s : State} {m : Memory}
    (h : lengthOperand s = bytes w → ∀ i < bytes w, m.read i = s.src.read i) :
    effect (.ldb w f g) (s.withSrc m) = effect (.ldb w f g) s := by
  by_cases hlen : lengthOperand s = bytes w
  · simp only [effect, State.withSrc_src, accumulated_congr f (h hlen)]
    rfl
  · have hlen' : lengthOperand (s.withSrc m) ≠ bytes w := hlen
    simp only [effect, if_pos hlen, if_pos hlen']

/-- An effect writes its part of the machine and the response, whatever SRC holds. -/
theorem Effect.next_withSrc (x : Effect) (s : State) (m : Memory) : x.next (s.withSrc m) = (x.next s).withSrc m := by
  obtain ⟨commit, r⟩ := x
  cases commit <;> rfl

/-- Settles O21: both runs of LDB have one effect. -/
theorem ldbReadsOnlyItsBytes : Obligations.LdbReadsOnlyItsBytes := by
  intro w f g s m h
  refine ⟨_, exec_eq_effect _ s, (exec_eq_effect _ (s.withSrc m)).trans ?_⟩
  rw [effect_ldb_withSrc f g h, Effect.next_withSrc]
  rfl

/-! The frame of a command on the host's side (R40, R42, R55). -/

section
variable (x : Effect) (s : State)

@[simp] theorem Effect.next_src : (x.next s).src = s.src := by
  obtain ⟨commit, r⟩ := x
  cases commit <;> rfl

@[simp] theorem Effect.next_ports : (x.next s).ports = s.ports := by
  obtain ⟨commit, r⟩ := x
  cases commit <;> rfl

@[simp] theorem Effect.next_inbox : (x.next s).inbox = s.inbox := by
  obtain ⟨commit, r⟩ := x
  cases commit <;> rfl

@[simp] theorem Effect.next_choice : (x.next s).choice = s.choice := by
  obtain ⟨commit, r⟩ := x
  cases commit <;> rfl

end

theorem EffectKind.next_dst_of_not_copy {i : Instr} {s : State} {x : Effect} (h : EffectKind i s x) (hcopy : i ≠ .copy)
    (hcopyr : i ≠ .copyr) : (x.next s).dst = s.dst := by
  cases h with
  | raised | answered | loaded | snapshotTaken | cursorMoved => rfl
  | copied ws hi hin => exact absurd hi (not_or.mpr ⟨hcopy, hcopyr⟩)

/-- Settles O46: no effect writes the host's side but `copied`, which writes DST alone. -/
theorem commandsLeaveTheHostSideAlone : Obligations.CommandsLeaveTheHostSideAlone := by
  intro i s t h
  obtain ⟨x, hx, rfl⟩ := exec_inversion h
  exact ⟨x.next_src s, x.next_ports s, x.next_inbox s, x.next_choice s, hx.next_dst_of_not_copy⟩

/-! The frame of DST (R42). -/

/-- Writes at other indices leave a byte as it was. -/
theorem applyWrites_read_of_ne {ws : List Write} {m : Memory} {a : Nat} (hm : m.wf = true)
    (hlim : ∀ w ∈ ws, w.1.toNat < Config.bufferLimit) (hne : ∀ w ∈ ws, w.1.toNat ≠ a) :
    (applyWrites ws m).read a = m.read a := by
  induction ws generalizing m with
  | nil => rfl
  | cons w ws ih =>
    obtain ⟨hw, hlim⟩ := List.forall_mem_cons.mp hlim
    obtain ⟨hwa, hne⟩ := List.forall_mem_cons.mp hne
    calc (applyWrites (w :: ws) m).read a
      _ = (applyWrites ws (m.write w.1.toNat w.2)).read a := rfl
      _ = (m.write w.1.toNat w.2).read a := ih (Memory.wf_write hm hw w.2) hlim hne
      _ = m.read a := by rw [Memory.read_write hm, if_neg hwa.symm]

/-- A copy, done or refused, leaves every byte that its run of writes does not cover. -/
theorem copyEffect_read_outside {s : State} {fits : Bool} {ds : Int} {f : Nat → Byte} {n a : Nat} (hdst : s.dst.wf = true)
    (hin : fits = true → ∀ w ∈ runOfWrites ds f n, 0 ≤ w.1 ∧ w.1 < lengthOperand s)
    (ha : ¬ (ds ≤ (a : Int) ∧ (a : Int) < ds + n)) :
    ((copyEffect s fits (runOfWrites ds f n)).next s).dst.read a = s.dst.read a := by
  cases fits with
  | false => rfl
  | true =>
    refine applyWrites_read_of_ne hdst (fun w hw => toNat_lt_bufferLimit (hin rfl w hw).2) fun w hw => ?_
    have hpos := (hin rfl w hw).1
    obtain ⟨k, hk, rfl⟩ := mem_runOfWrites hw
    simp only at hpos ⊢
    omega

/-- The gate on VIEW raises or goes on. -/
theorem viewEffect_cases (s : State) (k : View → Effect) :
    viewEffect s k = .raise .uninitialized ∨ viewEffect s k = k s.view := by
  unfold viewEffect
  split
  · exact .inr rfl
  · exact .inl rfl

theorem exec_copy_read_outside {s t : State} (hdst : s.dst.wf = true) (h : exec .copy s = .next t) {a : Nat}
    (ha : ¬ (copyDestStart s ≤ (a : Int) ∧ (a : Int) < copyDestStart s + bytes s.view.wc)) : t.dst.read a = s.dst.read a := by
  obtain rfl := eq_next_of_exec h
  rcases viewEffect_cases s (wholeCopyEffect s) with e | e <;> rw [effect, e]
  · rfl
  · exact copyEffect_read_outside hdst (fun hfits => (copyPlan_of_fits hfits).2) ha

theorem exec_copyr_read_outside {s t : State} (hdst : s.dst.wf = true) (h : exec .copyr s = .next t) {a : Nat}
    (ha : ¬ (rangeDestStart s ≤ (a : Int) ∧ (a : Int) < rangeDestStart s + max 0 (rangeCount s))) :
    t.dst.read a = s.dst.read a := by
  obtain rfl := eq_next_of_exec h
  rcases viewEffect_cases s (rangeCopyEffect s) with e | e <;> rw [effect, e]
  · rfl
  · exact copyEffect_read_outside hdst (fun hfits => (rangePlan_of_fits hfits).2) (by omega)

theorem exec_dst_of_error {i : Instr} {s t : State} {r : Response} (h : exec i s = .next t) (hr : t.resp = some r)
    (hne : r.status ≠ .ok) : t.dst = s.dst := by
  obtain ⟨x, hx, rfl⟩ := exec_inversion h
  obtain rfl := Option.some.inj hr
  rw [Effect.next, hx.commit_of_error hne]
  rfl

/-- Settles O47: the writes of a copy that fits are a run from its start on, and the others write nothing. -/
theorem copiesWriteOnlyTheirBytes : Obligations.CopiesWriteOnlyTheirBytes :=
  ⟨fun _ _ hdst h _ ha => exec_copy_read_outside hdst h ha, fun _ _ hdst h _ ha => exec_copyr_read_outside hdst h ha,
    fun _ _ _ _ _ h hr hne => exec_dst_of_error h hr hne⟩

/-! The standard layouts (R44). -/

/-- The first bytes of the lanes of a sequence are the sequence. -/
theorem take_ofList {bs : List Byte} (h : bs.length ≤ 8) : (Lanes.ofList bs).toList.take bs.length = bs := by
  refine List.ext_getElem (by simp [Lanes.toList, h]) fun k _ hk => ?_
  have hlane := ofList_lane bs (hk.trans_le h)
  simpa [List.getD_eq_getElem?_getD, hk, Lanes.toList, hk.trans_le h] using hlane

theorem take_ofList_viewBytes (v : View) : (Lanes.ofList (viewBytes v)).toList.take (bytes v.wc) = viewBytes v := by
  simpa using take_ofList (bs := viewBytes v) (by simpa using bytes_le v.wc)

theorem toarr_resp {s t : State} {r : Response} (hv : s.view.valid = true) (h : exec .toarr s = .next t)
    (hr : t.resp = some r) : r = .sequence (viewBytes s.view) := by
  obtain rfl := eq_next_of_exec h
  simpa [effect, viewEffect, hv, Effect.answer, eq_comm] using hr

theorem toarr_bytes {s t : State} {r : Response} (hv : s.view.valid = true) (h : exec .toarr s = .next t)
    (hr : t.resp = some r) : r.rbyte.toList.take (bytes s.view.wc) = viewBytes s.view := by
  rw [toarr_resp hv h hr]
  exact take_ofList_viewBytes s.view

/-- In Little the bytes are the base-256 digits of the value, the least significant first: read from the other end, after the number
`acc`, they append the low 8n bits of the value to it. -/
theorem foldr_littleBytes (x : Word64) (n acc : Nat) :
    ((List.range n).map fun i => x.extractLsb' (i * 8) 8).foldr (fun b k => k * 256 + b.toNat) acc =
      acc * 2 ^ (8 * n) + x.toNat % 2 ^ (8 * n) := by
  induction n generalizing acc with
  | zero => simp [Nat.mod_one]
  | succ n ih =>
    have hdigit : (x.extractLsb' (n * 8) 8).toNat = x.toNat / 2 ^ (8 * n) % 256 := by
      rw [BitVec.extractLsb'_toNat, Nat.shiftRight_eq_div_pow, Nat.mul_comm]
    rw [List.range_succ, List.map_append, List.foldr_append, List.map_singleton, List.foldr_cons, List.foldr_nil, ih, hdigit]
    rw [show 2 ^ (8 * (n + 1)) = 2 ^ (8 * n) * 256 by ring, Nat.mod_mul]
    ring

/-- The bytes in Big are those in Little from the other end. -/
theorem viewBytes_of_big {v : View} (h : v.fmt = .big) : viewBytes v = (viewBytes { v with fmt := .little }).reverse := by
  refine List.ext_getElem (by simp) fun i hi _ => ?_
  simp [viewBytes, viewByte, shiftAmount, h]

theorem foldr_viewBytes_of_little {v : View} (h : v.fmt = .little) :
    (viewBytes v).foldr (fun b k => k * 256 + b.toNat) 0 = v.value.toNat % 2 ^ bits v.wc := by
  have hbyte : viewByte v = fun i => v.value.extractLsb' (i * 8) 8 := by
    funext i
    simp [viewByte, shiftAmount, h]
  simpa [viewBytes, hbyte, bits] using foldr_littleBytes v.value (bytes v.wc) 0

theorem foldl_viewBytes_of_big {v : View} (h : v.fmt = .big) :
    (viewBytes v).foldl (fun k b => k * 256 + b.toNat) 0 = v.value.toNat % 2 ^ bits v.wc := by
  rw [viewBytes_of_big h, List.foldl_reverse]
  exact foldr_viewBytes_of_little rfl

/-- R44: the 48-bit layout is the part of the 64-bit layout of the same value that holds its low 48 bits. -/
theorem viewBytes_of_w48 {v : View} (h : v.wc = .w48) :
    viewBytes v =
      match v.fmt with
      | .big => ((viewBytes { v with wc := .w64 }).drop 2).take 6
      | .little => (viewBytes { v with wc := .w64 }).take 6 := by
  obtain ⟨valid, wc, g, fmt, x⟩ := v
  subst h
  cases fmt <;> rfl

/-- Settles O26: the lanes TOARR answers are the bytes of the view, which are base-256 digits of its value; those of a 64-bit view
are all eight. -/
theorem bytesAreTheStandardLayout : Obligations.BytesAreTheStandardLayout := by
  refine ⟨fun s t r hv h hr => ?_, fun s t r t' r' hv hw h hr h' hr' => ?_⟩
  · rw [toarr_bytes hv h hr]
    exact ⟨foldl_viewBytes_of_big, foldr_viewBytes_of_little⟩
  · have hnarrow : r.rbyte.toList.take 6 = viewBytes s.view := by
      rw [← toarr_bytes hv h hr, hw]
      rfl
    have hwide : r'.rbyte.toList = viewBytes { s.view with wc := .w64 } :=
      toarr_bytes (s := s.withView { s.view with wc := .w64 }) hv h' hr'
    rw [hnarrow, hwide]
    exact viewBytes_of_w48 hw

end Sys2Proof.Machine

namespace Sys2Proof.Machine

/-! PROOFS of 30_encoding.md. Two facts about `decode` carry them: it gives back the command of an encoding, and rejects an illegal
word; and every word is one or the other. First the fields of a command word (R61). -/

/-- The bits of a word assembled from its fields. -/
theorem getLsbD_assembleWord (g f : BitVec 1) (w : BitVec 2) (op : BitVec 4) (b : Nat) :
    (assembleWord g f w op).getLsbD b =
      if b < 4 then op.getLsbD b else if b < 6 then w.getLsbD (b - 4) else if b < 7 then f.getLsbD (b - 6)
      else g.getLsbD (b - 7) := by
  change (0#24 ++ g ++ f ++ w ++ op : BitVec (24 + 1 + 1 + 2 + 4)).getLsbD b = _
  simp only [BitVec.getLsbD_append, BitVec.getLsbD_zero]
  grind

/-- A word without RSV bits is its other fields (R61, R65). -/
theorem eq_assembleWord {cmd : Word32} (hrsv : cmd.extractLsb' 8 24 = 0#24) :
    cmd = assembleWord (BitVec.ofBool (cmd.getLsbD 7)) (BitVec.ofBool (cmd.getLsbD 6)) (cmd.extractLsb' 4 2)
      (cmd.extractLsb' 0 4) := by
  refine BitVec.eq_of_getLsbD_eq fun b hb => ?_
  rw [getLsbD_assembleWord]
  rcases Nat.lt_or_ge b 8 with h | h
  · interval_cases b <;> simp
  · have hbit : cmd.getLsbD b = false := by
      simpa [show 8 + (b - 8) = b by omega, show b - 8 < 24 by omega] using congrArg (BitVec.getLsbD · (b - 8)) hrsv
    grind

/-! The fourteen commands: their words, and how each set of fields is one of them (R68, R69). -/

@[simp] theorem Width.code_ofCode (c : BitVec 2) : (Width.ofCode c).code = c := by
  revert c; decide

@[simp] theorem Format.bit_ofBit (b : Bool) : (Format.ofBit b).bit = BitVec.ofBool b := by cases b <;> rfl

@[simp] theorem Signedness.bit_ofBit (b : Bool) : (Signedness.ofBit b).bit = BitVec.ofBool b := by cases b <;> rfl

/-- The word of a command decodes to it. -/
theorem decode_encode (i : Instr) : decode (encode i) = .ok i := by
  cases i with
  | shift w f => cases w <;> cases f <;> rfl
  | ldv w f g | ldb w f g => cases w <;> cases f <;> cases g <;> rfl
  | _ => rfl

/-- The commands that use none of WC, F and S, in the order of their opcodes (R68). -/
def fieldlessInstrs : List Instr :=
  [.byte, .count, .getv, .enum, .adv, .rst, .cur, .toarr, .tolist, .copy, .copyr]

theorem exists_fieldless_encode (op : BitVec 4) : 4 ≤ op.toNat → op.toNat ≤ 14 →
    ∃ i ∈ fieldlessInstrs, encode i = assembleWord 0#1 0#1 0#2 op := by
  revert op; decide

/-- The words that R143 calls illegal. -/
def IllegalWord (cmd : Word32) : Prop :=
  let op := (cmd.extractLsb' 0 4).toNat
  op = 0x0 ∨ op = 0xF ∨ cmd.extractLsb' 8 24 ≠ 0#24 ∨ (op = 0x1 ∧ cmd.getLsbD 7 = true) ∨
    (0x4 ≤ op ∧ op ≤ 0xE ∧ cmd.extractLsb' 4 4 ≠ 0#4)

/-- The decoder rejects an illegal word. -/
theorem decode_of_illegalWord {cmd : Word32} (h : IllegalWord cmd) : ∃ e, decode cmd = .error e := by
  by_cases hrsv : cmd.extractLsb' 8 24 = 0#24
  case neg => exact ⟨_, if_pos hrsv⟩
  simp only [decode, hrsv, ne_eq, not_true_eq_false, if_false]
  rcases h with h | h | h | ⟨h, hs⟩ | ⟨hlow, hhigh, hun⟩
  · exact ⟨_, if_pos (.inl (BitVec.eq_of_toNat_eq h))⟩
  · exact ⟨_, if_pos (.inr (BitVec.eq_of_toNat_eq h))⟩
  · exact absurd hrsv h
  · obtain hop : cmd.extractLsb' 0 4 = 0x1#4 := BitVec.eq_of_toNat_eq h
    simp [hop, hs, Signedness.ofBit]
  · generalize cmd.extractLsb' 0 4 = op at *
    have hother : op ≠ 0x0#4 ∧ op ≠ 0xF#4 ∧ op ≠ 0x1#4 ∧ op ≠ 0x2#4 ∧ op ≠ 0x3#4 := by bv_omega
    obtain ⟨h0, hF, h1, h2, h3⟩ := hother
    simp [h0, hF, h1, h2, h3, hun]

/-- With WC, F and S all 0, only OP is left of a word. -/
theorem eq_assembleWord_of_fieldless {cmd : Word32} (hrsv : cmd.extractLsb' 8 24 = 0#24) (hun : cmd.extractLsb' 4 4 = 0#4) :
    cmd = assembleWord 0#1 0#1 0#2 (cmd.extractLsb' 0 4) := by
  have hbit (k : Nat) (hk : k < 4) : cmd.getLsbD (4 + k) = false := by
    simpa [hk] using congrArg (BitVec.getLsbD · k) hun
  have hwc : cmd.extractLsb' 4 2 = 0#2 := by
    ext k hk
    simp [hbit k (by omega)]
  have h := eq_assembleWord hrsv
  rwa [hwc, hbit 3 (by omega), hbit 2 (by omega)] at h

section
variable {cmd : Word32} (hrsv : cmd.extractLsb' 8 24 = 0#24)
include hrsv

/-- With RSV and S 0, OP 0x1 is a SHIFT, whatever WC and F are. -/
theorem exists_encode_shift (hop : cmd.extractLsb' 0 4 = 0x1#4) (hs : cmd.getLsbD 7 = false) :
    ∃ w f, cmd = encode (.shift w f) := by
  have h := eq_assembleWord hrsv
  rw [hop, hs] at h
  exact ⟨.ofCode (cmd.extractLsb' 4 2), .ofBit (cmd.getLsbD 6), by simpa [encode] using h⟩

/-- With RSV 0, the word has a width, a format and a signedness. -/
theorem exists_fields : ∃ (w : Width) (f : Format) (g : Signedness),
    cmd = assembleWord g.bit f.bit w.code (cmd.extractLsb' 0 4) :=
  ⟨.ofCode (cmd.extractLsb' 4 2), .ofBit (cmd.getLsbD 6), .ofBit (cmd.getLsbD 7), by simpa using eq_assembleWord hrsv⟩

/-- With RSV 0, OP 0x2 is an LDV, whatever WC, F and S are. -/
theorem exists_encode_ldv (hop : cmd.extractLsb' 0 4 = 0x2#4) : ∃ w f g, cmd = encode (.ldv w f g) := by
  obtain ⟨w, f, g, h⟩ := exists_fields hrsv
  exact ⟨w, f, g, by rwa [hop] at h⟩

/-- With RSV 0, OP 0x3 is an LDB, whatever WC, F and S are. -/
theorem exists_encode_ldb (hop : cmd.extractLsb' 0 4 = 0x3#4) : ∃ w f g, cmd = encode (.ldb w f g) := by
  obtain ⟨w, f, g, h⟩ := exists_fields hrsv
  exact ⟨w, f, g, by rwa [hop] at h⟩

/-- With RSV, WC, F and S 0, each OP from 0x4 to 0xE is a command. -/
theorem exists_encode_fieldless (hun : cmd.extractLsb' 4 4 = 0#4) (hlow : 4 ≤ (cmd.extractLsb' 0 4).toNat)
    (hhigh : (cmd.extractLsb' 0 4).toNat ≤ 14) : ∃ i, cmd = encode i := by
  obtain ⟨i, -, henc⟩ := exists_fieldless_encode _ hlow hhigh
  exact ⟨i, (eq_assembleWord_of_fieldless hrsv hun).trans henc.symm⟩

end

/-- Every word is the word of a command or illegal. -/
theorem exists_encode_or_illegalWord (cmd : Word32) : (∃ i, cmd = encode i) ∨ IllegalWord cmd := by
  refine or_iff_not_imp_right.mpr fun h => ?_
  simp only [IllegalWord, not_or, not_not, not_and, Bool.not_eq_true] at h
  obtain ⟨h0, hF, hrsv, hshift, hun⟩ := h
  by_cases hlow : 4 ≤ (cmd.extractLsb' 0 4).toNat
  · exact exists_encode_fieldless hrsv (hun hlow (by omega)) hlow (by omega)
  · obtain h | h | h : cmd.extractLsb' 0 4 = 0x1#4 ∨ cmd.extractLsb' 0 4 = 0x2#4 ∨ cmd.extractLsb' 0 4 = 0x3#4 := by
      bv_omega
    · obtain ⟨w, f, hi⟩ := exists_encode_shift hrsv h (hshift (congrArg BitVec.toNat h))
      exact ⟨_, hi⟩
    · obtain ⟨w, f, g, hi⟩ := exists_encode_ldv hrsv h
      exact ⟨_, hi⟩
    · obtain ⟨w, f, g, hi⟩ := exists_encode_ldb hrsv h
      exact ⟨_, hi⟩

/-- The decoder is the inverse of the encoder, and answers a command for no other word (R61, R69). -/
theorem decode_eq_ok_iff {cmd : Word32} {i : Instr} : decode cmd = .ok i ↔ cmd = encode i := by
  refine ⟨fun h => ?_, fun h => h ▸ decode_encode i⟩
  rcases exists_encode_or_illegalWord cmd with ⟨j, rfl⟩ | hill
  · rw [Except.ok.inj ((decode_encode j).symm.trans h)]
  · obtain ⟨e, he⟩ := decode_of_illegalWord hill
    simp [he] at h

/-- Settles O2: a word is the word of a command, which decodes to that command alone, or is illegal, and decodes to none. -/
theorem decodeAndEncodeAgree : Obligations.DecodeAndEncodeAgree := fun _ _ => decode_eq_ok_iff

/-! The opcode map (R68). -/

/-- Where a mask has all ones, a masked word shows the field of the word itself. -/
theorem extractLsb'_of_mask {cmd mask pattern : Word32} {start len : Nat} (h : cmd &&& mask = pattern)
    (hmask : mask.extractLsb' start len = BitVec.allOnes len) : cmd.extractLsb' start len = pattern.extractLsb' start len := by
  rw [← h, BitVec.extractLsb'_and, hmask, BitVec.and_allOnes]

theorem exists_encode_shift_iff {cmd : Word32} :
    (∃ w f, cmd = encode (.shift w f)) ↔ cmd &&& 0xFFFFFF8F#32 = 0x00000001#32 := by
  refine ⟨fun ⟨w, f, h⟩ => ?_, fun h => ?_⟩
  · subst h
    cases w <;> cases f <;> rfl
  · have hs : cmd.getLsbD 7 = false := by simpa using congrArg (BitVec.getLsbD · 7) h
    exact exists_encode_shift (extractLsb'_of_mask h (by decide)) (extractLsb'_of_mask h (by decide)) hs

theorem exists_encode_ldv_iff {cmd : Word32} :
    (∃ w f g, cmd = encode (.ldv w f g)) ↔ cmd &&& 0xFFFFFF0F#32 = 0x00000002#32 := by
  refine ⟨fun ⟨w, f, g, h⟩ => ?_, fun h => ?_⟩
  · subst h
    cases w <;> cases f <;> cases g <;> rfl
  · exact exists_encode_ldv (extractLsb'_of_mask h (by decide)) (extractLsb'_of_mask h (by decide))

theorem exists_encode_ldb_iff {cmd : Word32} :
    (∃ w f g, cmd = encode (.ldb w f g)) ↔ cmd &&& 0xFFFFFF0F#32 = 0x00000003#32 := by
  refine ⟨fun ⟨w, f, g, h⟩ => ?_, fun h => ?_⟩
  · subst h
    cases w <;> cases f <;> cases g <;> rfl
  · exact exists_encode_ldb (extractLsb'_of_mask h (by decide)) (extractLsb'_of_mask h (by decide))

/-- Every command, in the order of R68. -/
def everyInstr : List Instr :=
  let widths : List Width := [.w16, .w32, .w48, .w64]
  let formats : List Format := [.big, .little]
  let signs : List Signedness := [.unsigned, .signed]
  (formats.flatMap fun f => widths.map fun w => .shift w f) ++
  (signs.flatMap fun g => formats.flatMap fun f => widths.map fun w => .ldv w f g) ++
  (signs.flatMap fun g => formats.flatMap fun f => widths.map fun w => .ldb w f g) ++ fieldlessInstrs

theorem mem_everyInstr (i : Instr) : i ∈ everyInstr := by
  cases i with
  | shift w f => cases w <;> cases f <;> decide
  | ldv w f g | ldb w f g => cases w <;> cases f <;> cases g <;> decide
  | _ => decide

/-- The 51 words of R68 are the words of the commands. -/
theorem legalWords_eq : Spec.legalWords = everyInstr.map fun i => (encode i).toNat := by decide

theorem mem_legalWords_iff {cmd : Word32} : cmd.toNat ∈ Spec.legalWords ↔ ∃ i, cmd = encode i := by
  simp [legalWords_eq, mem_everyInstr, BitVec.toNat_inj, eq_comm]

/-- Settles O3: by the encoder, whose words are those of the masks and of the list. -/
theorem legalWordsAreThoseOfTheOpcodeMap : Obligations.LegalWordsAreThoseOfTheOpcodeMap := by
  simp only [Obligations.LegalWordsAreThoseOfTheOpcodeMap, decode_eq_ok_iff]
  refine ⟨fun _ => exists_encode_shift_iff, fun _ => exists_encode_ldv_iff, fun _ => exists_encode_ldb_iff,
    fun _ => .rfl, fun _ => .rfl, fun _ => .rfl, fun _ => .rfl, fun _ => .rfl, fun _ => .rfl, fun _ => .rfl, fun _ => .rfl,
    fun _ => .rfl, fun _ => .rfl, fun _ => .rfl, fun _ => mem_legalWords_iff.symm, rfl, by decide⟩

/-- Each field of an assembled word is read back where R61 puts it. -/
theorem fields_assembleWord (g f : BitVec 1) (w : BitVec 2) (op : BitVec 4) :
    (assembleWord g f w op).extractLsb' 4 2 = w ∧ (assembleWord g f w op).getLsbD 6 = f.getLsbD 0 ∧
      (assembleWord g f w op).getLsbD 7 = g.getLsbD 0 := by
  refine ⟨BitVec.eq_of_getLsbD_eq fun k hk => ?_, getLsbD_assembleWord .., getLsbD_assembleWord ..⟩
  rw [BitVec.getLsbD_extractLsb', getLsbD_assembleWord]
  simp only [hk, decide_true, Bool.true_and, Nat.add_sub_cancel_left]
  rw [if_neg (by omega), if_pos (by omega)]

theorem Format.bit_getLsbD (f : Format) : f.bit.getLsbD 0 = decide (f = .little) := by cases f <;> rfl

theorem Signedness.bit_getLsbD (g : Signedness) : g.bit.getLsbD 0 = decide (g = .signed) := by cases g <;> rfl

/-- Settles O4: the word is the encoding, whose fields are read back. -/
theorem fieldsOfALegalWord : Obligations.FieldsOfALegalWord := by
  intro cmd i h wc
  obtain rfl := decode_eq_ok_iff.mp h
  have hwc (w : Width) : w.code = wc w := by cases w <;> rfl
  refine ⟨?_, ?_, fun hshift hload => ?_, fun w => by cases w <;> decide⟩
  · rintro w f rfl
    rw [← hwc, ← Format.bit_getLsbD]
    exact fields_assembleWord ..
  · rintro w f g (rfl | rfl) <;> rw [← hwc, ← Format.bit_getLsbD, ← Signedness.bit_getLsbD] <;> exact fields_assembleWord ..
  · cases i with
    | shift w f => exact absurd rfl (hshift w f)
    | ldv w f g => exact absurd rfl (hload w f g).1
    | ldb w f g => exact absurd rfl (hload w f g).2
    | _ => exact fields_assembleWord ..

/-- Settles O5: an illegal word is decoded to an error, and every other word is the word of a command. -/
theorem illegalWordsRaiseIllegalCommand : Obligations.IllegalWordsRaiseIllegalCommand := by
  refine fun cmd => ⟨fun h s p rest hinbox => ?_, fun h => ?_⟩
  · obtain ⟨e, he⟩ := decode_of_illegalWord h
    rw [step_of_command hinbox, runCommand_of_error (c := ⟨cmd, p⟩) he]
    rfl
  · obtain ⟨i, hi⟩ := (exists_encode_or_illegalWord cmd).resolve_right h
    exact ⟨i, decode_eq_ok_iff.mpr hi⟩

/-- Settles O1: the legal words are those of their commands. -/
theorem decodesWrittenOutWords : Obligations.DecodesWrittenOutWords :=
  ⟨decode_encode (.shift .w16 .big), decode_encode (.shift .w48 .little), decode_encode (.ldv .w16 .little .signed),
    decode_encode (.ldv .w32 .big .unsigned), decode_encode (.ldb .w48 .big .signed),
    decode_encode (.ldb .w64 .little .unsigned), decode_encode .byte, decode_encode .enum, decode_encode .copyr,
    rfl, rfl, rfl, rfl, rfl⟩

/-! A command presented to the block (R72). -/

theorem step_of_legal_command {s : State} {c : Command} {rest : List HostEvent} {i : Instr} (h : s.inbox = .command c :: rest)
    (hi : decode c.word = .ok i) : step s = exec i ((s.withInbox rest).withPorts c.ports) :=
  (step_of_command h).trans (runCommand_of_ok hi _)

/-- The word of a fetch is presented whole, with the ports as they stand (R71). -/
theorem withFetchWord_eq (s : State) {w : Nat} (h : w < 2 ^ 32) :
    s.withFetchWord 32 w = s.withInbox (.command ⟨BitVec.ofNat 32 w, s.ports⟩ :: s.inbox) := by
  rw [State.withFetchWord, Nat.mod_eq_of_lt h, presentWord]

/-- Settles O6: a legal word is run with its operands on the ports, and a fetched one with the ports as they stand. -/
theorem stepRunsTheDecodedCommand : Obligations.StepRunsTheDecodedCommand := by
  refine ⟨fun s c rest i h hi => step_of_legal_command h hi, fun s w i hw hi => ?_⟩
  rw [withFetchWord_eq s hw, step_of_legal_command (c := ⟨BitVec.ofNat 32 w, s.ports⟩) (State.withInbox_inbox s _) hi]
  rfl

/-! The ports (R66). -/

section
variable (s : State) (p : Ports)

@[simp] theorem viewEffect_withPorts (k : View → Effect) : viewEffect (s.withPorts p) k = viewEffect s k := rfl

@[simp] theorem enumEffect_withPorts (k : Enumerator → Effect) : enumEffect (s.withPorts p) k = enumEffect s k := rfl

@[simp] theorem copyEffect_withPorts (fits : Bool) (ws : List Write) :
    copyEffect (s.withPorts p) fits ws = copyEffect s fits ws := rfl

end

/-- A command does the same with other values on the ports it does not read. -/
theorem effect_withPorts {i : Instr} {s : State} {p : Ports} (h : Spec.sameOperands i s.ports p) :
    effect i (s.withPorts p) = effect i s := by
  cases i with simp only [Spec.sameOperands] at h
  | shift | byte =>
    have hindex : indexOperand (s.withPorts p) = indexOperand s := congrArg BitVec.toInt h.symm
    simp [effect, hindex]
  | ldv =>
    have hvalue : valueOperand (s.withPorts p) = valueOperand s := h.symm
    simp [effect, hvalue]
  | ldb =>
    have hlen : lengthOperand (s.withPorts p) = lengthOperand s := congrArg BitVec.toNat h.symm
    simp [effect, hlen]
  | copy =>
    obtain ⟨h0, hlen⟩ := h
    have hstart : copyDestStart (s.withPorts p) = copyDestStart s := congrArg BitVec.toInt h0.symm
    have hlen : lengthOperand (s.withPorts p) = lengthOperand s := congrArg BitVec.toNat hlen.symm
    have hcopy : wholeCopyEffect (s.withPorts p) = wholeCopyEffect s := by
      funext v
      simp [wholeCopyEffect, hstart, hlen]
    simp [effect, hcopy]
  | copyr =>
    obtain ⟨h0, h1, h2, hlen⟩ := h
    have hsource : rangeSourceStart (s.withPorts p) = rangeSourceStart s := congrArg BitVec.toInt h0.symm
    have hstart : rangeDestStart (s.withPorts p) = rangeDestStart s := congrArg BitVec.toInt h1.symm
    have hcount : rangeCount (s.withPorts p) = rangeCount s := congrArg BitVec.toInt h2.symm
    have hlen : lengthOperand (s.withPorts p) = lengthOperand s := congrArg BitVec.toNat hlen.symm
    have hcopy : rangeCopyEffect (s.withPorts p) = rangeCopyEffect s := by
      funext v
      simp [rangeCopyEffect, hsource, hstart, hcount, hlen]
    simp [effect, hcopy]
  | count | getv | enum | adv | rst | cur | toarr | tolist => rfl

/-- An effect writes its part of the machine and the response, whatever the ports hold. -/
theorem Effect.next_withPorts (x : Effect) (s : State) (p : Ports) : x.next (s.withPorts p) = (x.next s).withPorts p := by
  obtain ⟨commit, r⟩ := x
  cases commit <;> rfl

/-- Settles O48: both runs have one effect. -/
theorem unreadPortsHaveNoEffect : Obligations.UnreadPortsHaveNoEffect := by
  intro i s p h
  refine ⟨_, exec_eq_effect i s, (exec_eq_effect i (s.withPorts p)).trans ?_⟩
  rw [effect_withPorts h, Effect.next_withPorts]
  rfl

/-! The assembler (R73, R74): a line's word is the encoding of the command it names, and its literals fit their ports. -/

theorem shiftWord_eq (w : Width) (f : Format) : Spec.shiftWord w f = encode (.shift w f) := by
  cases w <;> cases f <;> rfl

theorem ldvWord_eq (w : Width) (f : Format) (g : Signedness) : Spec.ldvWord w f g = encode (.ldv w f g) := by
  cases w <;> cases f <;> cases g <;> rfl

theorem ldbWord_eq (w : Width) (f : Format) (g : Signedness) : Spec.ldbWord w f g = encode (.ldb w f g) := by
  cases w <;> cases f <;> cases g <;> rfl

theorem toInt_ofInt_of_fits32 {i : Int} (h : Spec.fits32 i) : (BitVec.ofInt 32 i).toInt = i :=
  BitVec.toInt_ofInt_eq_self (by decide) h.1 h.2

theorem denotes_ofInt {v : Int} (h : Spec.fits64 v) : Spec.denotes (BitVec.ofInt 64 v) v := by
  obtain ⟨hlow, hhigh⟩ := h
  refine ⟨fun hpos => ?_, fun hneg => BitVec.toInt_ofInt_eq_self (by decide) hlow (by omega)⟩
  rw [BitVec.toNat_ofInt]
  omega

theorem toNat_ofNat_of_lt {n : Nat} (h : n < 2 ^ 32) : (BitVec.ofNat 32 n).toNat = n :=
  (BitVec.toNat_ofNat n 32).trans (Nat.mod_eq_of_lt h)

/-- A list whose length fits LEN fits SRC (R7, R67). -/
theorem le_bufferLimit {n : Nat} (h : n < 2 ^ 32) : n ≤ Config.bufferLimit := by
  unfold Config.bufferLimit
  omega

/-- The events that place a list in SRC lay it out from index 0 on. -/
theorem placeSrc_laysOut {bs : List Byte} (h : bs.length ≤ Config.bufferLimit) : Spec.laysOut (placeSrc 0 bs) bs :=
  ⟨placeSrc_length bs (by omega), fun k b hb => by simpa using placeSrc_getElem? bs (k := 0) (by omega) hb⟩

theorem assemble_ldb (w : Width) (g : Signedness) (f : Format) (bs : List Byte) :
    (AsmLine.ldb w g f bs).assemble =
      placeSrc 0 bs ++ [.command ⟨Spec.ldbWord w f g, ⟨0, 0, 0, 0, BitVec.ofNat 32 bs.length⟩⟩] := by
  rw [ldbWord_eq]
  rfl

theorem assembleAll_pair (l l' : AsmLine) : assembleAll [l, l'] = l.assemble ++ l'.assemble := by simp [assembleAll]

/-- Settles O53: the words are the encodings, and the literals are read back from their ports. -/
theorem assemblerLinesPresentTheirCommand : Obligations.AssemblerLinesPresentTheirCommand := by
  refine ⟨fun w f i hi => ⟨_, toInt_ofInt_of_fits32 hi, by rw [shiftWord_eq]; rfl⟩,
    fun w g f v hv => ⟨_, denotes_ofInt hv, by rw [ldvWord_eq]; rfl⟩,
    fun w g f bs hbs => ⟨_, _, toNat_ofNat_of_lt hbs, placeSrc_laysOut (le_bufferLimit hbs), assemble_ldb w g f bs⟩,
    fun i hi => ⟨_, toInt_ofInt_of_fits32 hi, rfl⟩, rfl, rfl, rfl, rfl, rfl, rfl, rfl, rfl,
    fun ds len hds hlen => ⟨_, _, toInt_ofInt_of_fits32 hds, toNat_ofNat_of_lt hlen, rfl⟩,
    fun ss ds cnt len hss hds hcnt hlen => ⟨_, _, _, _, toInt_ofInt_of_fits32 hss, toInt_ofInt_of_fits32 hds,
      toInt_ofInt_of_fits32 hcnt, toNat_ofNat_of_lt hlen, rfl⟩,
    fun l => ?_, fun _ _ _ _ => assembleAll_pair _ _, fun _ _ _ _ => assembleAll_pair _ _,
    fun _ _ _ _ _ _ => assembleAll_pair _ _⟩
  obtain ⟨pre, h⟩ := l.assemble_eq
  exact ⟨pre, _, h, decode_encode l.instr⟩

/-! What LDB loads (R92): each byte of SRC at its place in the view. -/

/-- A bit of an accumulated OR is set when it is set in one of the terms. -/
theorem getLsbD_foldl_or (g : Nat → Word64) (l : List Nat) (acc : Word64) (b : Nat) :
    (l.foldl (fun acc i => acc ||| g i) acc).getLsbD b = (acc.getLsbD b || l.any fun i => (g i).getLsbD b) := by
  induction l generalizing acc with
  | nil => simp
  | cons i l ih => simp [ih, Bool.or_assoc]

/-- A bit of the accumulator is set when it is set in a byte of SRC that the shift table puts there. -/
theorem getLsbD_accumulated {w : Width} {f : Format} {m : Memory} {b : Nat} (hb : b < 64) :
    (accumulated w f m).getLsbD b = true ↔
      ∃ k < bytes w, shiftAmount w f k ≤ b ∧ (m.read k).getLsbD (b - shiftAmount w f k) = true := by
  rw [accumulated, getLsbD_foldl_or]
  simp [hb]

/-- The accumulator holds byte i of SRC where the shift table puts it: no other byte reaches there. -/
theorem extractLsb'_accumulated {w : Width} (f : Format) (m : Memory) {i : Nat} (h : i < bytes w) :
    (accumulated w f m).extractLsb' (shiftAmount w f i) 8 = m.read i := by
  refine BitVec.eq_of_getLsbD_eq fun j hj => ?_
  have hle := shiftAmount_le w f h
  have honly (k : Nat) (hk : k < bytes w) (hlow : shiftAmount w f k ≤ shiftAmount w f i + j)
      (hhigh : shiftAmount w f i + j - shiftAmount w f k < 8) : k = i := by
    cases f <;> simp only [shiftAmount] at hlow hhigh <;> omega
  rw [BitVec.getLsbD_extractLsb', decide_eq_true hj, Bool.true_and, Bool.eq_iff_iff, getLsbD_accumulated (by omega)]
  constructor
  · rintro ⟨k, hk, hlow, hbit⟩
    obtain rfl := honly k hk hlow (BitVec.lt_of_getLsbD hbit)
    rwa [Nat.add_sub_cancel_left] at hbit
  · exact fun hbit => ⟨i, h, Nat.le_add_right .., by rwa [Nat.add_sub_cancel_left]⟩

/-- The view that a load of the word `x` makes (R90, R92). -/
def loadedView (w : Width) (f : Format) (g : Signedness) (x : Word64) : View :=
  { valid := true, wc := w, s := g, fmt := f, value := canon w g x }

/-- A byte of a loaded view is a byte of the loaded word, which agrees with its canonical value below W (R22). -/
theorem viewByte_loadedView {w : Width} (f : Format) (g : Signedness) (x : Word64) {i : Nat} (h : i < bytes w) :
    viewByte (loadedView w f g x) i = x.extractLsb' (shiftAmount w f i) 8 := by
  refine BitVec.eq_of_getLsbD_eq fun j hj => ?_
  have hle := shiftAmount_le w f h
  have hin : shiftAmount w f i + j < bits w := by
    cases f <;> simp only [shiftAmount, bits] <;> omega
  change ((canon w g x).extractLsb' (shiftAmount w f i) 8).getLsbD j = _
  rw [BitVec.getLsbD_extractLsb', BitVec.getLsbD_extractLsb', getLsbD_canon w g x (by omega), if_pos hin]

section
variable {w : Width} (f : Format) (g : Signedness) {s : State}

theorem effect_ldb_of_len_eq (h : lengthOperand s = bytes w) :
    effect (.ldb w f g) s = loadEffect w f g (accumulated w f s.src) := if_neg (not_not.mpr h)

theorem effect_ldb_of_len_ne (h : lengthOperand s ≠ bytes w) :
    effect (.ldb w f g) s = .raise .invalidBufferLength := if_pos h

end

section
variable {w : Width} {f : Format} {g : Signedness} {s : State} {p : Ports} {rest : List HostEvent}
variable (h : s.inbox = .command ⟨Spec.ldbWord w f g, p⟩ :: rest)
include h

theorem step_ldb_eq_effect :
    step s = .next ((effect (.ldb w f g) ((s.withInbox rest).withPorts p)).next ((s.withInbox rest).withPorts p)) :=
  (step_of_legal_command h (decode_eq_ok_iff.mpr (ldbWord_eq w f g))).trans (exec_eq_effect _ _)

/-- An LDB presented with LEN = N loads SRC. -/
theorem step_ldb_of_len_eq (hlen : p.len.toNat = bytes w) :
    step s =
      Spec.answered { s with view := loadedView w f g (accumulated w f s.src), inbox := rest, ports := p } 0 := by
  rw [step_ldb_eq_effect h, effect_ldb_of_len_eq f g (s := (s.withInbox rest).withPorts p) hlen]
  rfl

/-- An LDB presented with another LEN raises InvalidBufferLength. -/
theorem step_ldb_of_len_ne (hlen : p.len.toNat ≠ bytes w) :
    step s = Spec.failed { s with inbox := rest, ports := p } .invalidBufferLength := by
  rw [step_ldb_eq_effect h, effect_ldb_of_len_ne f g (s := (s.withInbox rest).withPorts p) hlen]
  rfl

end

/-! An LDB line, run (R73). -/

/-- The k-th write of a run comes last. -/
theorem applyWrites_run_succ (ds : Nat) (f : Nat → Byte) (k : Nat) (m : Memory) :
    applyWrites (runOfWrites ds f (k + 1)) m = (applyWrites (runOfWrites ds f k) m).write (ds + k) (f k) := by
  simp only [applyWrites, runOfWrites, List.range_succ, List.map_append, List.foldl_append]
  rfl

/-- The machine after the first k events of an LDB line: k bytes of the list are in SRC. -/
def layingOut (s : State) (bs : List Byte) (k : Nat) : State :=
  ((s.withSrc (applyWrites (runOfWrites (0 : Nat) (bs.getD · 0) k) s.src)).withInbox (s.inbox.drop k)).withResp
    (if k = 0 then s.resp else none)

section
variable {s : State} {bs : List Byte} {pre rest : List HostEvent}

/-- One event lays out one byte. -/
theorem step_layingOut (hpre : Spec.laysOut pre bs) (hinbox : s.inbox = pre ++ rest) {k : Nat} (hk : k < bs.length) :
    step (layingOut s bs k) = .next (layingOut s bs (k + 1)) := by
  obtain ⟨hlim, hget⟩ := hpre.2 k _ (List.getElem?_eq_getElem hk)
  have hkpre : k < pre.length := hpre.1 ▸ hk
  have hnext : (layingOut s bs k).inbox = .writeSrc ⟨k, hlim⟩ bs[k] :: s.inbox.drop (k + 1) := by
    change s.inbox.drop k = _
    rw [List.drop_eq_getElem?_toList_append, hinbox, List.getElem?_append_left hkpre, hget]
    rfl
  have hbyte : bs.getD k 0 = bs[k] := List.getD_eq_getElem _ _ hk
  rw [step_of_event hnext, layingOut, layingOut, applyWrites_run_succ, hbyte, Nat.zero_add]
  rfl

theorem layingOut_inbox (hpre : Spec.laysOut pre bs) (hinbox : s.inbox = pre ++ rest) :
    (layingOut s bs bs.length).inbox = rest := by
  change s.inbox.drop bs.length = rest
  rw [hinbox, ← hpre.1, List.drop_left]

/-- With the list laid out, SRC reads as the list, and as before beyond it. -/
theorem layingOut_read (hwf : s.src.wf = true) (hlen : bs.length ≤ Config.bufferLimit) (a : Nat) :
    (layingOut s bs bs.length).src.read a = bs.getD a (s.src.read a) := by
  refine (applyWrites_run_read hwf (by omega) a).trans ?_
  by_cases ha : a < bs.length <;> simp [ha]

end

theorem layingOut_zero (s : State) (bs : List Byte) : layingOut s bs 0 = s := by
  simp [layingOut, runOfWrites, applyWrites]

/-- Settles O54: `layingOut` is the run up to the LDB, which loads the bytes that are then in SRC. -/
theorem ldbLineLoadsItsList : Obligations.LdbLineLoadsItsList := by
  intro s w g f bs rest hlen hwf hinbox
  have hlim := le_bufferLimit hlen
  have hpre := placeSrc_laysOut hlim
  rw [assemble_ldb, List.append_assoc] at hinbox
  have hl := layingOut_inbox hpre hinbox
  have hread := layingOut_read hwf hlim
  have hx := toNat_ofNat_of_lt hlen
  refine ⟨layingOut s bs, _, hx, layingOut_zero s bs, fun k hk => step_layingOut hpre hinbox hk, hread,
    rfl, rfl, rfl, rfl, rfl, hl, fun hn => ?_, fun hn => step_ldb_of_len_ne hl (hx.trans_ne hn)⟩
  refine ⟨_, rfl, rfl, rfl, rfl, fun k hk => ?_, step_ldb_of_len_eq hl (hx.trans hn)⟩
  rw [viewByte_loadedView f g _ hk, extractLsb'_accumulated f _ hk, hread]
  simp [hn, hk]

end Sys2Proof.Machine

namespace Sys2Proof.Machine

/-! PROOFS of 40_shift_table.md. What SHIFT answers (R80). -/

section
variable {w : Width} (f : Format) {s : State}

/-- Inside [0, N) the 6-bit entry of the ROM, zero-extended, is the shift amount (R24, R81). -/
theorem effect_shift_of_lt {i : Nat} (hi : indexOperand s = i) (h : i < bytes w) :
    effect (.shift w f) s = .answer (.scalar (BitVec.ofNat 64 (shiftAmount w f i))) := by
  have hentry : (BitVec.ofNat 6 (shiftAmount w f i)).setWidth 64 = BitVec.ofNat 64 (shiftAmount w f i) := by
    rw [← BitVec.ofNat_toNat, romEntry_toNat h]
  have hin : ¬ ((i : Int) < 0 ∨ (bytes w : Int) ≤ i) := by omega
  simp only [effect, hi, if_neg hin, Int.toNat_natCast, hentry]

theorem effect_shift_of_outside (h : indexOperand s < 0 ∨ (bytes w : Int) ≤ indexOperand s) :
    effect (.shift w f) s = .raise .indexOutOfRange := if_pos h

end

/-- Settles O17: the effect of SHIFT on each side of its index check, and the word of its encoding. -/
theorem shiftAnswersTheAmount : Obligations.ShiftAnswersTheAmount := by
  refine ⟨fun w f s i hi h => ?_, fun w f s h => ?_, fun cmd w f => ?_⟩
  · rw [exec_eq_effect, effect_shift_of_lt f hi h]
    cases f <;> rfl
  · rw [exec_eq_effect, effect_shift_of_outside f h]
    rfl
  · rw [decode_eq_ok_iff, shiftWord_eq]

/-! The bytes of a loaded view (R82, R94). -/

/-- No byte of a loaded view shows the signedness: each lies below W, where the view holds the bits of the loaded word. -/
theorem viewBytes_loadedView_congr (w : Width) (f : Format) (g g' : Signedness) (x : Word64) :
    viewBytes (loadedView w f g x) = viewBytes (loadedView w f g' x) :=
  List.map_congr_left fun i hi => by
    have h : i < bytes w := List.mem_range.mp hi
    rw [viewByte_loadedView f g x h, viewByte_loadedView f g' x h]

/-- After LDV, TOARR answers the bytes of the view that LDV made of A (R90, R115). -/
theorem ldv_toarr_resp {w : Width} {f : Format} {g : Signedness} {s t u : State} (hldv : exec (.ldv w f g) s = .next t)
    (htoarr : exec .toarr t = .next u) :
    u.resp = some (.sequence (viewBytes (loadedView w f g (valueOperand s)))) := by
  obtain rfl := eq_next_of_exec hldv
  obtain rfl := eq_next_of_exec htoarr
  rfl

/-- Settles O27: both runs answer the bytes of a view loaded from the same A. -/
theorem bytesDoNotDependOnSignedness : Obligations.BytesDoNotDependOnSignedness := by
  intro w f s t t' u u' hldv hldv' htoarr htoarr'
  rw [ldv_toarr_resp hldv htoarr, ldv_toarr_resp hldv' htoarr', viewBytes_loadedView_congr w f .signed .unsigned]

end Sys2Proof.Machine

namespace Sys2Proof.Machine

/-! PROOFS of 41_view.md. First what the commands of the view answer, as whole next states (R90 to R97, R115). -/

/-- LDV replaces VIEW by what it loads from A (R90). -/
theorem exec_ldv (w : Width) (f : Format) (g : Signedness) (s : State) :
    exec (.ldv w f g) s = Spec.answered (s.withView (loadedView w f g s.ports.a)) 0 := exec_eq_effect _ s

/-- LDB with LEN = N replaces VIEW by what it loads from SRC (R92). -/
theorem exec_ldb_of_len_eq {w : Width} (f : Format) (g : Signedness) {s : State} (h : s.ports.len.toNat = bytes w) :
    exec (.ldb w f g) s = Spec.answered (s.withView (loadedView w f g (accumulated w f s.src))) 0 := by
  rw [exec_eq_effect, effect_ldb_of_len_eq f g h]
  rfl

theorem exec_ldb_of_len_ne {w : Width} (f : Format) (g : Signedness) {s : State} (h : s.ports.len.toNat ≠ bytes w) :
    exec (.ldb w f g) s = Spec.failed s .invalidBufferLength := by
  rw [exec_eq_effect, effect_ldb_of_len_ne f g h]
  rfl

section
variable {s : State}

theorem viewEffect_of_valid (h : s.view.valid = true) (k : View → Effect) : viewEffect s k = k s.view := if_pos h

theorem viewEffect_of_invalid (h : s.view.valid = false) (k : View → Effect) : viewEffect s k = .raise .uninitialized := by
  simp [viewEffect, h]

/-- Without a view, every command that reads VIEW raises Uninitialized (R72, R142). -/
theorem exec_viewReader_of_invalid {i : Instr} (hi : i ∈ Spec.viewReaders) (h : s.view.valid = false) :
    exec i s = Spec.failed s .uninitialized := by
  have hraise : effect i s = .raise .uninitialized := by
    cases i with
    | byte | count | getv | enum | toarr | tolist | copy | copyr =>
      rw [effect]
      exact viewEffect_of_invalid h _
    | shift | ldv | ldb | adv | rst | cur => simp [Spec.viewReaders] at hi
  rw [exec_eq_effect, hraise]
  rfl

section
variable (h : s.view.valid = true)
include h

theorem exec_getv_of_valid : exec .getv s = Spec.answered s s.view.value := by
  rw [exec_eq_effect, effect, viewEffect_of_valid h]
  rfl

theorem exec_count_of_valid : exec .count s = Spec.answered s (BitVec.ofNat 64 (bytes s.view.wc)) := by
  rw [exec_eq_effect, effect, viewEffect_of_valid h]
  rfl

theorem exec_byte_of_lt {i : Nat} (hi : s.ports.i0.toInt = i) (hlt : i < bytes s.view.wc) :
    exec .byte s = Spec.answered s ((viewByte s.view i).setWidth 64) := by
  have hindex : indexOperand s = i := hi
  have hin : ¬ ((i : Int) < 0 ∨ (bytes s.view.wc : Int) ≤ i) := by omega
  rw [exec_eq_effect, effect, viewEffect_of_valid h, hindex, if_neg hin]
  rfl

theorem exec_byte_of_outside (hout : s.ports.i0.toInt < 0 ∨ (bytes s.view.wc : Int) ≤ s.ports.i0.toInt) :
    exec .byte s = Spec.failed s .indexOutOfRange := by
  rw [exec_eq_effect, effect, viewEffect_of_valid h, indexOperand, if_pos hout]
  rfl

theorem exec_toarr_of_valid : exec .toarr s = Spec.sequenced s (viewByte s.view) (bytes s.view.wc) := by
  rw [exec_eq_effect, effect, viewEffect_of_valid h]
  simp only [Effect.answer, Response.sequence, ofList_viewBytes, viewBytes_length]
  rfl

end

end

/-! The canonical value (R22, R99). -/

/-- The canonical value depends on the bits below W only. -/
theorem canon_congr {w : Width} (g : Signedness) {x y : Word64} (h : ∀ b < bits w, x.getLsbD b = y.getLsbD b) :
    canon w g x = canon w g y := by
  have hlow : x.extractLsb' 0 (bits w) = y.extractLsb' 0 (bits w) :=
    BitVec.eq_of_getLsbD_eq fun b hb => by simp [hb, h b hb]
  simp only [canon, hlow]

/-- Words with the same N bytes have the same canonical value: the bytes cover the bits below W (R26). -/
theorem canon_eq_of_bytes {w : Width} {f : Format} (g : Signedness) {x y : Word64}
    (h : ∀ k < bytes w, x.extractLsb' (shiftAmount w f k) 8 = y.extractLsb' (shiftAmount w f k) 8) :
    canon w g x = canon w g y := by
  refine canon_congr g fun b hb => ?_
  obtain ⟨k, ⟨hk, hlow, hhigh⟩, -⟩ := existsUnique_shiftAmount w f hb
  have hbit := congrArg (BitVec.getLsbD · (b - shiftAmount w f k)) (h k hk)
  simpa [show b - shiftAmount w f k < 8 by omega, Nat.add_sub_cancel' hlow] using hbit

/-- From bit W on, the canonical value repeats its own bit W-1 (signed) or is 0 (unsigned). -/
theorem getLsbD_canon_of_ge (w : Width) (g : Signedness) (x : Word64) {b : Nat} (hb : b < 64) (h : bits w ≤ b) :
    (canon w g x).getLsbD b = (decide (g = .signed) && (canon w g x).getLsbD (bits w - 1)) := by
  have hpos := bits_pos w
  rw [getLsbD_canon w g x hb, getLsbD_canon w g x (by omega), if_neg (by omega), if_pos (by omega)]

/-- Bits [63:48] of a 48-bit canonical value are the extension of bit 47 (R93). -/
theorem extractLsb'_canon_w48 (g : Signedness) (x : Word64) :
    (canon .w48 g x).extractLsb' 48 16 = if g = .signed ∧ x.getLsbD 47 = true then 0xFFFF#16 else 0x0000#16 := by
  refine BitVec.eq_of_getLsbD_eq fun b hb => ?_
  have hhigh : ¬ 48 + b < bits .w48 := by simp [bits]
  rw [BitVec.getLsbD_extractLsb', getLsbD_canon .w48 g x (by omega), if_neg hhigh, decide_eq_true hb, Bool.true_and]
  change (decide (g = .signed) && x.getLsbD 47) = _
  split
  next hsign =>
    obtain ⟨rfl, hbit⟩ := hsign
    rw [hbit, show 0xFFFF#16 = BitVec.allOnes 16 from rfl, BitVec.getLsbD_allOnes, decide_eq_true hb]
    rfl
  next hsign => simpa using hsign

/-- A 64-bit word is canonical for a 48-bit type when its bits [63:48] are the extension of bit 47 (R91). -/
theorem eq_canon_w48_iff (g : Signedness) (x : Word64) :
    x = canon .w48 g x ↔
      x.extractLsb' 48 16 = if g = .signed ∧ x.getLsbD 47 = true then 0xFFFF#16 else 0x0000#16 := by
  rw [← extractLsb'_canon_w48]
  refine ⟨congrArg _, fun h => BitVec.eq_of_getLsbD_eq fun b hb => ?_⟩
  by_cases hlow : b < bits .w48
  · rw [getLsbD_canon .w48 g x hb, if_pos hlow]
  · have hge : 48 ≤ b := Nat.not_lt.mp hlow
    simpa [show b - 48 < 16 by omega, Nat.add_sub_cancel' hge] using congrArg (BitVec.getLsbD · (b - 48)) h

/-- The integer of a signed canonical value is its low W bits read as two's complement (R97). -/
theorem toInt_canon_signed (w : Width) (x : Word64) : (canon w .signed x).toInt = (x.extractLsb' 0 (bits w)).toInt :=
  BitVec.toInt_signExtend_of_le (bits_le w)

/-- The integer of an unsigned canonical value is the number of its low W bits (R97). -/
theorem toNat_canon_unsigned (w : Width) (x : Word64) : (canon w .unsigned x).toNat = (x.extractLsb' 0 (bits w)).toNat :=
  BitVec.toNat_setWidth_of_le (bits_le w)

/-- The low W bits of the 64-bit encoding of an integer are its W-bit encoding. -/
theorem extractLsb'_ofInt (w : Width) (v : Int) : (BitVec.ofInt 64 v).extractLsb' 0 (bits w) = BitVec.ofInt (bits w) v := by
  have hdvd : ((2 ^ bits w : Nat) : Int) ∣ (2 ^ 64 : Nat) := by exact_mod_cast Nat.pow_dvd_pow 2 (bits_le w)
  have hpos : (0 : Int) < (2 ^ 64 : Nat) := by positivity
  refine BitVec.eq_of_toNat_eq (Int.natCast_inj.mp ?_)
  rw [← BitVec.setWidth_eq_extractLsb' (bits_le w), BitVec.toNat_setWidth, BitVec.toNat_ofInt, BitVec.toNat_ofInt,
    Int.natCast_mod, Int.toNat_of_nonneg (Int.emod_nonneg _ (by positivity)), Int.emod_emod_of_dvd v hdvd,
    Int.toNat_of_nonneg (Int.emod_nonneg _ (by positivity))]

/-- The canonical value of the encoding of an integer in a signed type's range is that integer (R99). -/
theorem toInt_canon_ofInt {w : Width} {v : Int} (hlow : -(2 ^ (bits w - 1)) ≤ v) (hhigh : v < 2 ^ (bits w - 1)) :
    (canon w .signed (BitVec.ofInt 64 v)).toInt = v := by
  rw [toInt_canon_signed, extractLsb'_ofInt, BitVec.toInt_ofInt_eq_self (bits_pos w) hlow hhigh]

/-- The canonical value of the encoding of a number in an unsigned type's range is that number (R99). -/
theorem toNat_canon_ofInt {w : Width} {v : Int} (hlow : 0 ≤ v) (hhigh : v < 2 ^ bits w) :
    ((canon w .unsigned (BitVec.ofInt 64 v)).toNat : Int) = v := by
  rw [toNat_canon_unsigned, extractLsb'_ofInt, BitVec.toNat_ofInt,
    Int.emod_eq_of_lt hlow (by exact_mod_cast hhigh), Int.toNat_of_nonneg hlow]

/-- A word that encodes a representable value is its own canonical value (R98). -/
theorem canon_of_representable {w : Width} {g : Signedness} {a : Word64} (h : Spec.representable w g a) : canon w g a = a := by
  cases g with
  | signed =>
    refine BitVec.eq_of_toInt_eq ?_
    have hkept := toInt_canon_ofInt h.1 h.2
    rwa [BitVec.ofInt_toInt] at hkept
  | unsigned =>
    refine BitVec.eq_of_toNat_eq (Int.natCast_inj.mp ?_)
    have hkept := toNat_canon_ofInt (w := w) (Int.natCast_nonneg a.toNat) (by exact_mod_cast h)
    rwa [BitVec.ofInt_natCast, BitVec.ofNat_toNat, BitVec.setWidth_eq] at hkept

/-! The words of the loads (R90, R92). -/

theorem typeCode_lt (w : Width) (f : Format) (g : Signedness) : Spec.typeCode w f g < 16 := by
  cases w <;> cases f <;> cases g <;> decide

theorem eq_ofNat_iff {cmd : Word32} {n : Nat} (h : n < 2 ^ 32) : cmd = BitVec.ofNat 32 n ↔ cmd.toNat = n := by
  rw [← BitVec.toNat_inj, toNat_ofNat_of_lt h]

theorem decode_ldv_iff (cmd : Word32) (w : Width) (f : Format) (g : Signedness) :
    decode cmd = .ok (.ldv w f g) ↔ cmd.toNat = 0x02 + 0x10 * Spec.typeCode w f g := by
  have hcode := typeCode_lt w f g
  rw [decode_eq_ok_iff, ← ldvWord_eq, Spec.ldvWord, eq_ofNat_iff (by omega)]

theorem decode_ldb_iff (cmd : Word32) (w : Width) (f : Format) (g : Signedness) :
    decode cmd = .ok (.ldb w f g) ↔ cmd.toNat = 0x03 + 0x10 * Spec.typeCode w f g := by
  have hcode := typeCode_lt w f g
  rw [decode_eq_ok_iff, ← ldbWord_eq, Spec.ldbWord, eq_ofNat_iff (by omega)]

/-! The loads (R90 to R93). -/

/-- Settles O18: LDV loads the canonical value, whose bits are known. -/
theorem ldvLoadsTheCanonicalValue : Obligations.LdvLoadsTheCanonicalValue :=
  ⟨fun w f g s => ⟨_, exec_ldv w f g s, fun _ hb => getLsbD_canon w g s.ports.a hb⟩, decode_ldv_iff⟩

/-- With `strict48` false, as the machine has it, LDV is never refused (R91). -/
theorem ldvWith_false (w : Width) (f : Format) (g : Signedness) (s : State) : ldvWith false w f g s = exec (.ldv w f g) s := rfl

/-- With `strict48` true, an LDV whose A is canonical or not of a 48-bit type runs as with false (R91). -/
theorem ldvWith_true_of_canonical {w : Width} (f : Format) {g : Signedness} {s : State}
    (h : w ≠ .w48 ∨ s.ports.a = canon .w48 g s.ports.a) : ldvWith true w f g s = exec (.ldv w f g) s := by
  refine if_neg ?_
  rintro ⟨-, rfl, hne⟩
  exact h.elim (absurd rfl) hne

/-- Settles O19: A[63:48] is the extension exactly when A is its own canonical value. -/
theorem strictFortyEightRefusesNonCanonical : Obligations.StrictFortyEightRefusesNonCanonical := by
  refine ⟨fun w f g s hw hne => ?_, fun w f g s h => ?_, fun w f g s => ⟨_, exec_ldv w f g s, exec_ldv w f g s⟩⟩
  · subst hw
    exact if_pos ⟨rfl, rfl, mt (eq_canon_w48_iff g s.ports.a).mp hne⟩
  · rw [← eq_canon_w48_iff] at h
    exact ⟨_, (ldvWith_true_of_canonical f h).trans (exec_ldv w f g s), exec_ldv w f g s⟩

/-- Byte i of the view that LDB makes is byte i of SRC (R92). -/
theorem viewByte_loadedView_accumulated {w : Width} (f : Format) (g : Signedness) (m : Memory) {i : Nat} (h : i < bytes w) :
    viewByte (loadedView w f g (accumulated w f m)) i = m.read i := by
  rw [viewByte_loadedView f g _ h, extractLsb'_accumulated f m h]

/-- Settles O20: LDB loads the canonical value of the accumulated bytes. -/
theorem ldbLoadsTheBytesOfSrc : Obligations.LdbLoadsTheBytesOfSrc := by
  refine ⟨fun w f g s h => ⟨_, exec_ldb_of_len_eq f g h, fun i hi => ?_, fun b hb hge => getLsbD_canon_of_ge w g _ hb hge⟩,
    fun w f g s h => exec_ldb_of_len_ne f g h, decode_ldb_iff⟩
  have hbyte := viewByte_loadedView_accumulated f g s.src hi
  cases f <;> exact hbyte

/-- The index of the most significant byte of a 48-bit layout (R15). -/
def mostSignificantIndex : Format → Nat
  | .big => 0
  | .little => 5

theorem shiftAmount_mostSignificantIndex (f : Format) : shiftAmount .w48 f (mostSignificantIndex f) = 40 := by
  cases f <;> rfl

/-- Bit 47 of what a 48-bit LDB accumulates is the top bit of the most significant byte of SRC (R93). -/
theorem getLsbD_accumulated_w48 (f : Format) (m : Memory) :
    (accumulated .w48 f m).getLsbD 47 = (m.read (mostSignificantIndex f)).getLsbD 7 := by
  have hlt : mostSignificantIndex f < bytes .w48 := by cases f <;> decide
  rw [← extractLsb'_accumulated f m hlt, shiftAmount_mostSignificantIndex, BitVec.getLsbD_extractLsb']
  rfl

/-- Settles O22: GETV answers the canonical value of the accumulated bytes. -/
theorem fortyEightBitLoadsExtendTheSign : Obligations.FortyEightBitLoadsExtendTheSign := by
  intro f g s h
  refine ⟨_, _, _, exec_ldb_of_len_eq f g h, exec_getv_of_valid rfl, rfl, (extractLsb'_canon_w48 g _).trans ?_⟩
  rw [getLsbD_accumulated_w48]
  rfl

/-! The byte, the count and the value (R94 to R97). -/

/-- Settles O23: BYTE on each side of its index check, and behind its gate. -/
theorem byteAnswersOneByte : Obligations.ByteAnswersOneByte :=
  ⟨fun s i hv hi hlt => exec_byte_of_lt hv hi hlt, fun s hv hout => exec_byte_of_outside hv hout,
    fun s hv => exec_viewReader_of_invalid (by decide) hv, fun _ => decode_eq_ok_iff⟩

/-- Settles O24: the byte count of each width. -/
theorem countAnswersTheByteCount : Obligations.CountAnswersTheByteCount := by
  refine ⟨fun s hv => ?_, fun s hv => exec_viewReader_of_invalid (by decide) hv, fun _ => decode_eq_ok_iff⟩
  rw [exec_count_of_valid hv]
  cases s.view.wc <;> rfl

/-- Settles O25: GETV answers the value, which is the extension of its low W bits when it is canonical. -/
theorem getvAnswersTheValue : Obligations.GetvAnswersTheValue := by
  refine ⟨fun s hv => exec_getv_of_valid hv, fun s hv hcanon => ⟨fun hs => ?_, fun hs => ?_⟩,
    fun s hv => exec_viewReader_of_invalid (by decide) hv, fun _ => decode_eq_ok_iff⟩
  · rw [← toInt_canon_signed, ← hs, ← hcanon hv]
  · rw [← toNat_canon_unsigned, ← hs, ← hcanon hv]

/-! Values and bytes through the view (R98, R99). -/

/-- Settles O28: GETV answers the canonical value of the encoding, which is the extension of the W-bit encoding. -/
theorem representableValuesAreKept : Obligations.RepresentableValuesAreKept := by
  refine ⟨fun w f s v hlow hhigh => ?_, fun w f s v hlow hhigh => ?_⟩
  · exact ⟨_, _, _, exec_ldv .., exec_getv_of_valid rfl, rfl, toInt_canon_ofInt hlow hhigh,
      congrArg (BitVec.signExtend 64) (extractLsb'_ofInt w v)⟩
  · exact ⟨_, _, _, exec_ldv .., exec_getv_of_valid rfl, rfl, toNat_canon_ofInt hlow hhigh,
      congrArg (BitVec.setWidth 64) (extractLsb'_ofInt w v)⟩

/-- The lanes of a sequence depend on its bytes below n only. -/
theorem lanes_congr {f g : Nat → Byte} {n : Nat} (h : ∀ k < n, f k = g k) : Spec.lanes f n = Spec.lanes g n := by
  have hlane (k : Nat) : (if k < n then f k else 0) = if k < n then g k else 0 :=
    ite_congr rfl (h k) fun _ => rfl
  simp only [Spec.lanes, hlane]

/-- What TOARR answers of a loaded word, laid in SRC, accumulates to a word with the same canonical value (R98). -/
theorem canon_accumulated {w : Width} {f : Format} (g : Signedness) {m : Memory} {x : Word64}
    (h : ∀ k < bytes w, m.read k = viewByte (loadedView w f g x) k) : canon w g (accumulated w f m) = canon w g x :=
  canon_eq_of_bytes (f := f) g fun k hk => by
    rw [extractLsb'_accumulated f m hk, h k hk, viewByte_loadedView f g x hk]

theorem lanes_viewByte_getD (v : View) {k : Nat} (h : k < bytes v.wc) :
    (Spec.lanes (viewByte v) (bytes v.wc)).toList.getD k 0 = viewByte v k := by
  rw [← ofList_viewBytes, ofList_lane _ (h.trans_le (bytes_le v.wc)), viewBytes_getD, if_pos h]

theorem toNat_ofNat_bytes (w : Width) : (BitVec.ofNat 4 (bytes w)).toNat = bytes w := by cases w <;> rfl

theorem gives_congr {t : State} {v v' : Word64} (h : Spec.gives t v) (hv : v = v') : Spec.gives t v' := hv ▸ h

/-- Settles O29: the bytes of a loaded view fix its canonical value, and the bytes of a view loaded from SRC are those of SRC. -/
theorem roundTripLaw : Obligations.RoundTripLaw := by
  refine ⟨fun w f g s => ?_, fun w f g s h => ?_⟩
  · refine ⟨_, _, _, exec_ldv w f g s, exec_toarr_of_valid rfl, rfl, rfl, toNat_ofNat_bytes w, fun m p hm hlen => ?_⟩
    have hvalue : canon w g (accumulated w f m) = canon w g s.ports.a :=
      canon_accumulated g fun k hk => (hm k hk).trans (lanes_viewByte_getD (loadedView w f g s.ports.a) hk)
    refine ⟨_, _, exec_ldb_of_len_eq f g hlen, exec_getv_of_valid rfl, ?_⟩
    exact ⟨gives_congr rfl hvalue, fun hrep => gives_congr rfl (hvalue.trans (canon_of_representable hrep))⟩
  · refine ⟨_, _, exec_ldb_of_len_eq f g h, exec_toarr_of_valid rfl, ?_⟩
    rw [← lanes_congr fun k hk => viewByte_loadedView_accumulated f g s.src hk]
    rfl

end Sys2Proof.Machine

namespace Sys2Proof.Machine

/-! PROOFS of 42_enumerator.md. First what the commands of the enumerator answer, as whole next states (R110 to R113, R115, R116). -/

section
variable {s : State}

theorem enumEffect_of_valid (h : s.enum.valid = true) (k : Enumerator → Effect) : enumEffect s k = k s.enum := if_pos h

theorem enumEffect_of_invalid (h : s.enum.valid = false) (k : Enumerator → Effect) : enumEffect s k = .raise .uninitialized := by
  simp [enumEffect, h]

/-- Without an enumerator, every command that reads ENUM raises Uninitialized (R72, R142). -/
theorem exec_enumReader_of_invalid {i : Instr} (hi : i ∈ Spec.enumReaders) (h : s.enum.valid = false) :
    exec i s = Spec.failed s .uninitialized := by
  have hraise : effect i s = .raise .uninitialized := by
    cases i with
    | adv | rst | cur =>
      rw [effect]
      exact enumEffect_of_invalid h _
    | shift | ldv | ldb | byte | count | getv | enum | toarr | tolist | copy | copyr => simp [Spec.enumReaders] at hi
  rw [exec_eq_effect, hraise]
  rfl

/-- ENUM replaces ENUM whole by the snapshot of the view (R110). -/
theorem exec_enum_of_valid (h : s.view.valid = true) : exec .enum s = Spec.answered (s.withEnum (snapshot s.view)) 0 := by
  rw [exec_eq_effect, effect_enum_of_valid h]
  rfl

/-- A load leaves ENUM as it was (R110, D34). -/
theorem exec_load_enum {w : Width} {f : Format} {g : Signedness} {i : Instr} (hi : i = .ldv w f g ∨ i = .ldb w f g) {t : State}
    (h : exec i s = .next t) : t.enum = s.enum := by
  obtain rfl := eq_next_of_exec h
  rcases effect_of_load hi s with e | ⟨x, e⟩ <;> rw [e] <;> rfl

/-- TOLIST is TOARR (R116). -/
theorem exec_tolist_eq_toarr (s : State) : exec .tolist s = exec .toarr s := rfl

section
variable (h : s.enum.valid = true)
include h

theorem exec_adv_of_valid :
    exec .adv s =
      Spec.answered (Spec.atCursor s (advanced s.enum)) (if advanced s.enum < s.enum.n.toNat then 1 else 0) := by
  rw [exec_eq_effect, effect, enumEffect_of_valid h]
  rfl

/-- ADV before the last byte moves to the next one (R111). -/
theorem exec_adv_of_lt (hlt : s.enum.cur + 1 < s.enum.n.toNat) :
    exec .adv s = Spec.answered (Spec.atCursor s (s.enum.cur + 1)) 1 := by
  have hto : advanced s.enum = s.enum.cur + 1 := min_eq_left hlt.le
  rw [exec_adv_of_valid h, hto, if_pos hlt]

/-- ADV from the last byte on moves to END (R111). -/
theorem exec_adv_of_ge (hge : (s.enum.n.toNat : Int) ≤ s.enum.cur + 1) :
    exec .adv s = Spec.answered (Spec.atCursor s s.enum.n.toNat) 0 := by
  have hto : advanced s.enum = s.enum.n.toNat := min_eq_right hge
  rw [exec_adv_of_valid h, hto, if_neg (lt_irrefl _)]

/-- RST moves to BEFORE (R112). -/
theorem exec_rst_of_valid : exec .rst s = Spec.answered (Spec.atCursor s (-1)) 0 := by
  rw [exec_eq_effect, effect, enumEffect_of_valid h]
  rfl

/-- CUR at a byte answers it (R113). -/
theorem exec_cur_of_lt {c : Nat} (hc : s.enum.cur = c) (hlt : c < s.enum.n.toNat) :
    exec .cur s = Spec.answered s ((s.enum.e.toList.getD c 0).setWidth 64) := by
  have hin : ¬ ((c : Int) < 0 ∨ (s.enum.n.toNat : Int) ≤ c) := by omega
  rw [exec_eq_effect, effect, enumEffect_of_valid h, hc, if_neg hin]
  rfl

/-- CUR at BEFORE and at END raises InvalidState (R113). -/
theorem exec_cur_of_outside (hout : s.enum.cur < 0 ∨ (s.enum.n.toNat : Int) ≤ s.enum.cur) :
    exec .cur s = Spec.failed s .invalidState := by
  rw [exec_eq_effect, effect, enumEffect_of_valid h, if_pos hout]
  rfl

end

end

/-! Each command on its own. -/

/-- Settles O30: ENUM takes the snapshot of the view, whose lanes are its bytes, and a load does not write it. -/
theorem enumTakesASnapshot : Obligations.EnumTakesASnapshot := by
  refine ⟨fun s hv => ⟨arityOf s.view.wc, rfl, ?_⟩, fun w f g s t h => ?_,
    fun s hv => exec_viewReader_of_invalid (by decide) hv, fun _ => decode_eq_ok_iff⟩
  · rw [exec_enum_of_valid hv, snapshot, ofList_viewBytes]
    rfl
  · exact h.elim (exec_load_enum (.inl rfl)) (exec_load_enum (w := w) (f := f) (g := g) (.inr rfl))

/-- Settles O31: ADV on each side of the last byte, and behind its gate. -/
theorem advMovesTheCursor : Obligations.AdvMovesTheCursor :=
  ⟨fun _ hv hlt => exec_adv_of_lt hv hlt, fun _ hv hge => exec_adv_of_ge hv hge,
    fun _ hv => exec_enumReader_of_invalid (by decide) hv, fun _ => decode_eq_ok_iff⟩

/-- Settles O32: RST from any cursor, and behind its gate. -/
theorem rstReturnsToBefore : Obligations.RstReturnsToBefore :=
  ⟨fun _ hv => exec_rst_of_valid hv, fun _ hv => exec_enumReader_of_invalid (by decide) hv, fun _ => decode_eq_ok_iff⟩

/-- Settles O33: CUR on each side of its check of the cursor, and behind its gate. -/
theorem curAnswersTheByteAtTheCursor : Obligations.CurAnswersTheByteAtTheCursor :=
  ⟨fun _ _ hv hc hlt => exec_cur_of_lt hv hc hlt, fun _ hv hout => exec_cur_of_outside hv hout,
    fun _ hv => exec_enumReader_of_invalid (by decide) hv, fun _ => decode_eq_ok_iff⟩

/-- Settles O36: TOARR answers the lanes of the view's bytes, and its gate and word. -/
theorem toarrAnswersTheBytes : Obligations.ToarrAnswersTheBytes :=
  ⟨fun _ hv => exec_toarr_of_valid hv, fun _ hv => exec_viewReader_of_invalid (by decide) hv, fun _ => decode_eq_ok_iff⟩

/-- Settles O37: what holds of TOARR holds of TOLIST. -/
theorem tolistAnswersTheBytes : Obligations.TolistAnswersTheBytes :=
  ⟨fun s hv => (exec_tolist_eq_toarr s).trans (exec_toarr_of_valid hv), exec_tolist_eq_toarr,
    fun _ hv => exec_viewReader_of_invalid (by decide) hv, fun _ => decode_eq_ok_iff⟩

/-! The cursor as a state machine (R114). -/

theorem arity_pos (n : Arity) : 0 < n.toNat := by cases n <;> decide

section
variable {s : State} (h : s.enum.valid = true)
include h

theorem exec_adv_atCursor_of_lt {c : Int} (hlt : c + 1 < s.enum.n.toNat) :
    exec .adv (Spec.atCursor s c) = Spec.answered (Spec.atCursor s (c + 1)) 1 :=
  exec_adv_of_lt (s := Spec.atCursor s c) h hlt

theorem exec_adv_atCursor_of_ge {c : Int} (hge : (s.enum.n.toNat : Int) ≤ c + 1) :
    exec .adv (Spec.atCursor s c) = Spec.answered (Spec.atCursor s s.enum.n.toNat) 0 :=
  exec_adv_of_ge (s := Spec.atCursor s c) h hge

theorem exec_rst_atCursor (c : Int) : exec .rst (Spec.atCursor s c) = Spec.answered (Spec.atCursor s (-1)) 0 :=
  exec_rst_of_valid (s := Spec.atCursor s c) h

theorem exec_cur_atCursor_of_lt {k : Nat} (hlt : k < s.enum.n.toNat) :
    exec .cur (Spec.atCursor s k) = Spec.answered (Spec.atCursor s k) ((s.enum.e.toList.getD k 0).setWidth 64) :=
  exec_cur_of_lt (s := Spec.atCursor s k) h rfl hlt

theorem exec_cur_atCursor_of_outside {c : Int} (hout : c < 0 ∨ (s.enum.n.toNat : Int) ≤ c) :
    exec .cur (Spec.atCursor s c) = Spec.failed (Spec.atCursor s c) .invalidState :=
  exec_cur_of_outside (s := Spec.atCursor s c) h hout

end

/-- Settles O34: the four rows of R114, each by the side of the checks of ADV and CUR on which its cursor lies. -/
theorem cursorStateMachine : Obligations.CursorStateMachine := by
  intro s h
  have hpos := arity_pos s.enum.n
  refine ⟨⟨?_, exec_rst_atCursor h _, ?_⟩, fun k hk => ⟨?_, exec_rst_atCursor h _, ?_⟩,
    fun k hk => ⟨?_, exec_rst_atCursor h _, ?_⟩, ?_, exec_rst_atCursor h _, ?_⟩
  · exact exec_adv_atCursor_of_lt h (by omega)
  · exact exec_cur_atCursor_of_outside h (.inl (by omega))
  · exact exec_adv_atCursor_of_lt h (by omega)
  · exact exec_cur_atCursor_of_lt h (by omega)
  · exact exec_adv_atCursor_of_ge h (by omega)
  · exact exec_cur_atCursor_of_lt h (by omega)
  · exact exec_adv_atCursor_of_ge h (by omega)
  · exact exec_cur_atCursor_of_outside h (.inr le_rfl)

/-! The exhaustion law (R117). -/

/-- The machine after ENUM and k ADVs that answer 1: the cursor of the snapshot is at k - 1. -/
def enumerating (s : State) (k : Nat) : State :=
  (Spec.atCursor (s.withEnum (snapshot s.view)) (k - 1)).withResp (some (.scalar (if k = 0 then 0 else 1)))

section
variable {s : State}

theorem exec_enum_enumerating (h : s.view.valid = true) : exec .enum s = .next (enumerating s 0) := exec_enum_of_valid h

theorem enumerating_cur (s : State) (k : Nat) : (enumerating s k).enum.cur = k - 1 := rfl

/-- An ADV that the enumerator has a byte for. -/
theorem exec_adv_enumerating {k : Nat} (hk : k < bytes s.view.wc) :
    exec .adv (enumerating s k) = .next (enumerating s (k + 1)) := by
  have hcur : (enumerating s k).enum.cur + 1 = ((k + 1 : Nat) : Int) - 1 := by
    rw [enumerating_cur]
    omega
  have hlt : (enumerating s k).enum.cur + 1 < bytes s.view.wc := by omega
  rw [exec_adv_of_lt rfl hlt, hcur]
  rfl

/-- The ADV after the last byte. -/
theorem exec_adv_enumerating_last :
    exec .adv (enumerating s (bytes s.view.wc)) =
      Spec.answered (Spec.atCursor (enumerating s (bytes s.view.wc)) (bytes s.view.wc)) 0 :=
  exec_adv_of_ge rfl (Int.sub_add_cancel (bytes s.view.wc : Int) 1).ge

/-- Lane 0 of a snapshot is byte 0 of the view. -/
theorem snapshot_lane_zero (v : View) : (snapshot v).e.toList.getD 0 0 = viewByte v 0 := by
  rw [snapshot, ofList_viewBytes, lanes_viewByte_getD v (bytes_pos v.wc)]

end

/-- Settles O35: `enumerating` is the run up to the last byte; ADV then finds END, and RST and ADV the first byte again. -/
theorem enumeratorExhaustionLaw : Obligations.EnumeratorExhaustionLaw := by
  intro s hv
  have hpos := bytes_pos s.view.wc
  refine ⟨enumerating s, exec_enum_enumerating hv, fun k hk => ⟨exec_adv_enumerating hk, rfl⟩,
    _, _, _, _, exec_adv_enumerating_last, rfl, exec_rst_of_valid rfl, exec_adv_of_lt rfl ?_, rfl,
    exec_cur_of_lt (c := 0) rfl rfl hpos, ?_⟩
  · exact Int.natCast_pos.mpr hpos
  · exact gives_congr rfl (congrArg (BitVec.setWidth 64) (snapshot_lane_zero s.view))

end Sys2Proof.Machine

namespace Sys2Proof.Machine

/-! PROOFS of 43_buffer_copy.md. First what the checks say and what the two copies answer, as whole next states (R130, R131). -/

theorem copyFits_iff {n : Nat} {ds : Int} {len : Nat} : copyFits n ds len = true ↔ 0 ≤ ds ∧ ds + n ≤ len := by
  simp only [copyFits, Bool.and_eq_true, decide_eq_true_eq]

theorem rangeFits_iff {n : Nat} {ss ds cnt : Int} {len : Nat} :
    rangeFits n ss ds cnt len = true ↔ 0 ≤ ss ∧ 0 ≤ ds ∧ ss + cnt ≤ n ∧ ds + cnt ≤ len := by
  simp only [rangeFits, Bool.and_eq_true, decide_eq_true_eq, and_assoc]

/-- The checks of COPYR with sourceStart 0 and count N are those of COPY (R132). -/
theorem rangeFits_whole (n : Nat) (ds : Int) (len : Nat) : rangeFits n 0 ds n len = copyFits n ds len := by
  simp [rangeFits, copyFits]

section
variable {s : State} (hv : s.view.valid = true)
include hv

/-- COPY makes its run of writes when both checks pass (R130). -/
theorem exec_copy_of_fits (h : copyFits (bytes s.view.wc) (copyDestStart s) (lengthOperand s) = true) :
    exec .copy s = Spec.answered
      (s.withDst (applyWrites (runOfWrites (copyDestStart s) (viewByte s.view) (bytes s.view.wc)) s.dst)) 0 := by
  rw [exec_eq_effect, effect, viewEffect_of_valid hv, wholeCopyEffect, copyEffect, if_pos h]
  rfl

theorem exec_copy_of_unfit (h : ¬ copyFits (bytes s.view.wc) (copyDestStart s) (lengthOperand s) = true) :
    exec .copy s = Spec.failed s .indexOutOfRange := by
  rw [exec_eq_effect, effect, viewEffect_of_valid hv, wholeCopyEffect, copyEffect, if_neg h]
  rfl

/-- COPYR makes its run of writes when all four checks pass (R131). -/
theorem exec_copyr_of_fits
    (h : rangeFits (bytes s.view.wc) (rangeSourceStart s) (rangeDestStart s) (rangeCount s) (lengthOperand s) = true) :
    exec .copyr s = Spec.answered
      (s.withDst (applyWrites
        (runOfWrites (rangeDestStart s) (fun j => viewByte s.view ((rangeSourceStart s).toNat + j)) (rangeCount s).toNat)
        s.dst)) 0 := by
  rw [exec_eq_effect, effect, viewEffect_of_valid hv, rangeCopyEffect, copyEffect, if_pos h]
  rfl

theorem exec_copyr_of_unfit
    (h : ¬ rangeFits (bytes s.view.wc) (rangeSourceStart s) (rangeDestStart s) (rangeCount s) (lengthOperand s) = true) :
    exec .copyr s = Spec.failed s .indexOutOfRange := by
  rw [exec_eq_effect, effect, viewEffect_of_valid hv, rangeCopyEffect, copyEffect, if_neg h]
  rfl

end

/-! What DST reads as afterwards (R42). -/

/-- A run of no writes leaves the buffer. -/
@[simp] theorem applyWrites_run_zero (ds : Int) (f : Nat → Byte) (m : Memory) : applyWrites (runOfWrites ds f 0) m = m := rfl

/-- What a buffer reads as after a run of bytes from byte `ss` of a view on: the byte as far into the range as the index is into the
destination, and what was there outside it, also when the count is 0 or less. -/
theorem applyWrites_range_read {m : Memory} (hm : m.wf = true) {ss ds cnt : Int} (hss : 0 ≤ ss) (hds : 0 ≤ ds) {len : Word32}
    (hlen : ds + cnt ≤ len.toNat) (v : View) (a : Nat) :
    (applyWrites (runOfWrites ds (fun j => viewByte v (ss.toNat + j)) cnt.toNat) m).read a =
      if ds ≤ (a : Int) ∧ (a : Int) < ds + cnt then viewByte v (ss + ((a : Int) - ds)).toNat else m.read a := by
  by_cases hcnt : cnt ≤ 0
  · have hnone : ¬ (ds ≤ (a : Int) ∧ (a : Int) < ds + cnt) := by omega
    rw [Int.toNat_of_nonpos hcnt, applyWrites_run_zero, if_neg hnone]
  · obtain ⟨d, rfl⟩ := Int.eq_ofNat_of_zero_le hds
    obtain ⟨n, rfl⟩ := Int.eq_ofNat_of_zero_le (not_le.mp hcnt).le
    have hlimit := le_bufferLimit len.isLt
    rw [Int.toNat_natCast, applyWrites_run_read hm (by omega)]
    by_cases ha : d ≤ a ∧ a < d + n
    · have hbyte : ss.toNat + (a - d) = (ss + ((a : Int) - d)).toNat := by omega
      rw [if_pos ha, if_pos (by omega), hbyte]
    · rw [if_neg ha, if_neg (by omega)]

/-! Each copy on its own. -/

/-- Settles O38: COPY on each side of its two checks, and behind its gate. -/
theorem copyWritesTheBytes : Obligations.CopyWritesTheBytes := by
  refine ⟨fun s ds hdst hv hds hlen => ?_, fun s hv hout => exec_copy_of_unfit hv fun h => ?_,
    fun s hv => exec_viewReader_of_invalid (by decide) hv, fun _ => decode_eq_ok_iff⟩
  · have hstart : copyDestStart s = ds := hds
    have hfits : copyFits (bytes s.view.wc) (copyDestStart s) (lengthOperand s) = true := by
      rw [hstart]
      exact copyFits_iff.mpr ⟨Int.natCast_nonneg ds, Int.ofNat_le.mpr hlen⟩
    have hlimit := hlen.trans (le_bufferLimit s.ports.len.isLt)
    refine ⟨_, exec_copy_of_fits hv hfits, ?_⟩
    rw [hstart]
    exact applyWrites_run_read hdst hlimit
  · obtain ⟨hlow, hhigh⟩ : 0 ≤ s.ports.i0.toInt ∧ s.ports.i0.toInt + bytes s.view.wc ≤ s.ports.len.toNat :=
      copyFits_iff.mp h
    omega

/-- Settles O39: COPYR on each side of its four checks, and behind its gate; a count of 0 or less makes an empty run. -/
theorem copyrWritesTheRange : Obligations.CopyrWritesTheRange := by
  refine ⟨fun s ss ds cnt hdst hv hss hds hcnt hss0 hds0 hview hlen => ?_,
    fun s ss ds cnt hv hss hds hcnt hout => exec_copyr_of_unfit hv fun h => ?_,
    fun s hv => exec_viewReader_of_invalid (by decide) hv, fun _ => decode_eq_ok_iff⟩
  · subst hss hds hcnt
    refine ⟨_, exec_copyr_of_fits hv (rangeFits_iff.mpr ⟨hss0, hds0, hview, hlen⟩), fun hnone => ?_,
      applyWrites_range_read hdst hss0 hds0 hlen s.view⟩
    rw [rangeCount, Int.toNat_of_nonpos hnone, applyWrites_run_zero]
  · obtain ⟨hss0, hds0, hview, hlen⟩ : 0 ≤ ss ∧ 0 ≤ ds ∧ ss + cnt ≤ bytes s.view.wc ∧ ds + cnt ≤ s.ports.len.toNat := by
      subst hss hds hcnt
      exact rangeFits_iff.mp h
    omega

/-! COPY as COPYR of the whole view (R132). -/

/-- The ports that ask COPYR for the whole view, from the destinationStart of a COPY. -/
def wholeViewPorts (s : State) : Ports :=
  { s.ports with i0 := 0, i1 := s.ports.i0, i2 := BitVec.ofNat 32 (bytes s.view.wc) }

theorem rangeCount_wholeViewPorts (s : State) : rangeCount (s.withPorts (wholeViewPorts s)) = bytes s.view.wc := by
  change (BitVec.ofNat 32 (bytes s.view.wc)).toInt = bytes s.view.wc
  cases s.view.wc <;> rfl

/-- With those ports COPYR has the checks and the writes of COPY. -/
theorem rangeCopyEffect_wholeViewPorts (s : State) :
    rangeCopyEffect (s.withPorts (wholeViewPorts s)) s.view = wholeCopyEffect s s.view := by
  have hsource : rangeSourceStart (s.withPorts (wholeViewPorts s)) = 0 := rfl
  have hstart : rangeDestStart (s.withPorts (wholeViewPorts s)) = copyDestStart s := rfl
  have hlen : lengthOperand (s.withPorts (wholeViewPorts s)) = lengthOperand s := rfl
  simp [rangeCopyEffect, wholeCopyEffect, hsource, hstart, hlen, rangeCount_wholeViewPorts, rangeFits_whole]

theorem effect_copyr_wholeViewPorts (s : State) : effect .copyr (s.withPorts (wholeViewPorts s)) = effect .copy s := by
  rw [effect, effect, viewEffect_withPorts, viewEffect, rangeCopyEffect_wholeViewPorts, viewEffect]

/-- Settles O40: the two commands have one effect. -/
theorem copyIsCopyrOfTheWholeView : Obligations.CopyIsCopyrOfTheWholeView := by
  intro s
  refine ⟨_, exec_eq_effect .copy s, (exec_eq_effect .copyr (s.withPorts (wholeViewPorts s))).trans ?_⟩
  rw [effect_copyr_wholeViewPorts, Effect.next_withPorts]
  rfl

end Sys2Proof.Machine

namespace Sys2Proof.Machine

/-! PROOFS of 60_exceptions.md. First what an error is: the whole effect of a command that reports one (R145). -/

/-- A command that reports an error does nothing but raise it. -/
theorem EffectKind.eq_raise_of_error {i : Instr} {s : State} {x : Effect} (h : EffectKind i s x) (hne : x.resp.status ≠ .ok) :
    x = .raise x.resp.status := by
  cases h with
  | raised st hst => rfl
  | answered r hst hcount => exact absurd hst hne
  | loaded | snapshotTaken | cursorMoved | copied => exact absurd rfl hne

/-- A raised effect is a failed command. -/
theorem exec_of_effect_raise {i : Instr} {s : State} {st : Status} (h : effect i s = .raise st) :
    exec i s = Spec.failed s st := by
  rw [exec_eq_effect, h]
  rfl

/-- Settles O42: the response is that of the command's effect, which raises when it is an error. -/
theorem errorsArePrecise : Obligations.ErrorsArePrecise := fun i s =>
  ⟨_, (effect i s).resp, exec_eq_effect i s, (effect i s).next_resp s,
    fun hne => exec_of_effect_raise ((effect_kind i s).eq_raise_of_error hne)⟩

/-! Which command reports which status, and when Uninitialized (R142, R146). -/

/-- The command reads a register that is not constructed (R72). -/
def GateClosed (i : Instr) (s : State) : Prop :=
  (i ∈ Spec.viewReaders ∧ s.view.valid = false) ∨ (i ∈ Spec.enumReaders ∧ s.enum.valid = false)

/-- The command may answer the status in this state: OK, or one of its row, Uninitialized only behind a closed gate. -/
def StatusAllowed (i : Instr) (s : State) (st : Status) : Prop :=
  st = .ok ∨ (st ∈ Spec.raisable i ∧ (st = .uninitialized → GateClosed i s))

/-- Uninitialized is in the rows of the commands that read a register, and in no other (R142). -/
theorem uninitialized_mem_raisable_iff {i : Instr} :
    .uninitialized ∈ Spec.raisable i ↔ i ∈ Spec.viewReaders ∨ i ∈ Spec.enumReaders := by
  cases i with
  | shift | ldv | ldb => simp [Spec.raisable, Spec.viewReaders, Spec.enumReaders]
  | _ => decide

section
variable {i : Instr} {s : State}

theorem statusAllowed_viewEffect {k : View → Effect} (hi : i ∈ Spec.viewReaders)
    (h : StatusAllowed i s (k s.view).resp.status) : StatusAllowed i s (viewEffect s k).resp.status := by
  cases hv : s.view.valid
  · rw [viewEffect_of_invalid hv]
    exact .inr ⟨uninitialized_mem_raisable_iff.mpr (.inl hi), fun _ => .inl ⟨hi, hv⟩⟩
  · rwa [viewEffect_of_valid hv]

theorem statusAllowed_enumEffect {k : Enumerator → Effect} (hi : i ∈ Spec.enumReaders)
    (h : StatusAllowed i s (k s.enum).resp.status) : StatusAllowed i s (enumEffect s k).resp.status := by
  cases hv : s.enum.valid
  · rw [enumEffect_of_invalid hv]
    exact .inr ⟨uninitialized_mem_raisable_iff.mpr (.inr hi), fun _ => .inr ⟨hi, hv⟩⟩
  · rwa [enumEffect_of_valid hv]

/-- A status of the command's own may be raised in every state. -/
theorem statusAllowed_raise {st : Status} (hmem : st ∈ Spec.raisable i) (hne : st ≠ .uninitialized) :
    StatusAllowed i s (Effect.raise st).resp.status := .inr ⟨hmem, fun h => absurd h hne⟩

theorem statusAllowed_checked {p : Prop} [Decidable p] {st : Status} {x : Effect} (hmem : st ∈ Spec.raisable i)
    (hne : st ≠ .uninitialized) (hok : x.resp.status = .ok) :
    StatusAllowed i s (if p then .raise st else x).resp.status := by
  split
  · exact statusAllowed_raise hmem hne
  · exact .inl hok

theorem statusAllowed_copyEffect {fits : Bool} {ws : List Write} (hmem : .indexOutOfRange ∈ Spec.raisable i) :
    StatusAllowed i s (copyEffect s fits ws).resp.status := by
  unfold copyEffect
  split
  · exact .inl rfl
  · exact statusAllowed_raise hmem (by decide)

end

/-- Every command answers OK or a status of its row, and Uninitialized only behind a closed gate. -/
theorem statusAllowed_effect (i : Instr) (s : State) : StatusAllowed i s (effect i s).resp.status := by
  cases i with simp only [effect]
  | shift w f => exact statusAllowed_checked (.head _) (by decide) rfl
  | ldv w f g => exact .inl rfl
  | ldb w f g => exact statusAllowed_checked (.head _) (by decide) rfl
  | byte => exact statusAllowed_viewEffect (by decide) (statusAllowed_checked (.head _) (by decide) rfl)
  | count | getv | enum | toarr | tolist => exact statusAllowed_viewEffect (by decide) (.inl rfl)
  | adv | rst => exact statusAllowed_enumEffect (by decide) (.inl rfl)
  | cur => exact statusAllowed_enumEffect (by decide) (statusAllowed_checked (.head _) (by decide) rfl)
  | copy | copyr => exact statusAllowed_viewEffect (by decide) (statusAllowed_copyEffect (.head _))

theorem statusAllowed_of_exec {i : Instr} {s t : State} {r : Response} (h : exec i s = .next t) (hr : t.resp = some r) :
    StatusAllowed i s r.status := by
  obtain rfl := eq_next_of_exec h
  obtain rfl := Option.some.inj hr
  exact statusAllowed_effect i s

/-- Behind a closed gate the command raises Uninitialized. -/
theorem exec_of_gateClosed {i : Instr} {s : State} (h : GateClosed i s) : exec i s = Spec.failed s .uninitialized := by
  rcases h with ⟨hi, hv⟩ | ⟨hi, hv⟩
  · exact exec_viewReader_of_invalid hi hv
  · exact exec_enumReader_of_invalid hi hv

/-- Settles O7: a closed gate raises Uninitialized, and nothing else is allowed to. -/
theorem uninitializedExactlyWhenInvalid : Obligations.UninitializedExactlyWhenInvalid := by
  refine ⟨fun s i hi hv => exec_of_gateClosed (.inl ⟨hi, hv⟩), fun s i hi hv => exec_of_gateClosed (.inr ⟨hi, hv⟩),
    fun s i t r h hr hst => ?_, rfl, rfl⟩
  rcases statusAllowed_of_exec h hr with hok | ⟨-, hgate⟩
  · simp [hok] at hst
  · exact hgate hst

/-! That every status of a row is raised (R146). -/

/-- A state whose operands no check passes: both registers constructed, the cursor BEFORE, I0 = -1 and LEN = 0. -/
def badOperands : State :=
  { State.reset with
    view := { View.reset with valid := true }
    enum := { Enumerator.reset with valid := true }
    ports := { Ports.idle with i0 := -1 } }

/-- There every command with a status of its own raises it. -/
theorem exec_badOperands {i : Instr} {st : Status} (hst : st ∈ Spec.raisable i) (hne : st ≠ .uninitialized) :
    exec i badOperands = Spec.failed badOperands st := by
  cases i with simp only [Spec.raisable, List.mem_cons, List.not_mem_nil, hne, or_false] at hst
  | shift w f =>
    subst hst
    exact exec_of_effect_raise (effect_shift_of_outside f (.inl (by decide)))
  | ldb w f g =>
    subst hst
    exact exec_ldb_of_len_ne f g (bytes_pos w).ne
  | byte =>
    subst hst
    exact exec_byte_of_outside rfl (.inl (by decide))
  | cur =>
    subst hst
    exact exec_cur_of_outside rfl (.inl (by decide))
  | copy =>
    subst hst
    exact exec_copy_of_unfit rfl (by decide)
  | copyr =>
    subst hst
    exact exec_copyr_of_unfit rfl (by decide)

/-- Every status of a command's row is raised in some state: Uninitialized after reset, the others by bad operands. -/
theorem exists_exec_eq_failed {i : Instr} {st : Status} (hst : st ∈ Spec.raisable i) : ∃ s, exec i s = Spec.failed s st := by
  by_cases h : st = .uninitialized
  · subst h
    have hclosed : GateClosed i .reset := (uninitialized_mem_raisable_iff.mp hst).imp (⟨·, rfl⟩) (⟨·, rfl⟩)
    exact ⟨_, exec_of_gateClosed hclosed⟩
  · exact ⟨_, exec_badOperands hst h⟩

/-- With an RSV bit set, a command's word keeps its OP and is illegal (R65). -/
theorem illegalWord_encode_or_rsv (i : Instr) : IllegalWord (encode i ||| 0x100#32) := by
  refine .inr (.inr (.inl fun hrsv => ?_))
  simpa using congrArg (BitVec.getLsbD · 0) hrsv

/-- Settles O43: the allowed statuses, the states that raise them, and the command's word with an RSV bit set. -/
theorem statusMatrix : Obligations.StatusMatrix := by
  refine ⟨fun i s t r h hr => (statusAllowed_of_exec h hr).imp_right And.left, fun i st hst => exists_exec_eq_failed hst,
    fun i => ⟨encode i ||| 0x100#32, ?_, fun j hj => ?_⟩⟩
  · rw [BitVec.extractLsb'_or]
    exact BitVec.or_zero
  · obtain ⟨e, he⟩ := decode_of_illegalWord (illegalWord_encode_or_rsv i)
    simp [he] at hj

/-! Idling, and the codes (R140, R156). -/

/-- Settles O8: with an empty inbox a step only clears the response. -/
theorem idleStepChangesNoState : Obligations.IdleStepChangesNoState := by
  intro s hempty
  rcases step_cases s with ⟨-, hstep⟩ | ⟨e, rest, hinbox, -⟩
  · exact ⟨_, hstep, rfl, rfl, rfl, rfl, rfl, rfl, rfl, rfl⟩
  · simp [hempty] at hinbox

/-- Settles O41: the six codes, none of which is 6 or 7. -/
theorem statusCodes : Obligations.StatusCodes := by
  refine ⟨rfl, rfl, rfl, rfl, rfl, rfl, fun st => ?_⟩
  cases st <;> decide

end Sys2Proof.Machine

namespace Sys2Proof.Machine

/-! PROOFS of 70_reset_and_hazards.md. First what DST holds after a command that completed: its writes in flight, all made. -/

/-- The writes a plan makes: none where a check failed (R42). -/
def plannedWrites : Except Fault (Option (List Write)) → List Write
  | .ok (some ws) => ws
  | _ => []

section
variable {s t : State}

/-- A plan that was carried out has made its writes. -/
theorem carryOut_dst {plan : Except Fault (Option (List Write))}
    (hin : ∀ {ws}, plan = .ok (some ws) → ∀ w ∈ ws, 0 ≤ w.1 ∧ w.1 < lengthOperand s) (h : carryOut s plan = .next t) :
    t.dst = applyWrites (plannedWrites plan) s.dst := by
  match plan with
  | .error f => cases h
  | .ok none =>
    rw [carryOut_none] at h
    obtain rfl := Host.Outcome.next.inj h
    rfl
  | .ok (some ws) =>
    rw [carryOut_of_in (hin rfl)] at h
    obtain rfl := Host.Outcome.next.inj h
    rfl

/-- A copy behind its gate: without a view it makes no write (R142). -/
theorem readingView_carryOut_dst {plan : View → Except Fault (Option (List Write))}
    (hin : ∀ {ws}, plan s.view = .ok (some ws) → ∀ w ∈ ws, 0 ≤ w.1 ∧ w.1 < lengthOperand s)
    (h : readingView s (fun v => carryOut s (plan v)) = .next t) :
    t.dst = applyWrites (plannedWrites (if s.view.valid then plan s.view else .ok none)) s.dst := by
  cases hv : s.view.valid
  · rw [readingView_invalid hv] at h
    obtain rfl := Host.Outcome.next.inj h
    rfl
  · rw [readingView_valid hv] at h
    exact carryOut_dst hin h

end

section
variable {c : Command} (s : State)

theorem writesInFlight_of_error {e : DecodeError} (h : decode c.word = .error e) : writesInFlight c s = [] := by
  simp only [writesInFlight, h]

theorem writesInFlight_of_not_copy {i : Instr} (h : decode c.word = .ok i) (hcopy : i ≠ .copy) (hcopyr : i ≠ .copyr) :
    writesInFlight c s = [] := by
  cases i with
  | copy => exact absurd rfl hcopy
  | copyr => exact absurd rfl hcopyr
  | _ => simp only [writesInFlight, h]

theorem writesInFlight_of_copy (h : decode c.word = .ok .copy) :
    writesInFlight c s = plannedWrites (if s.view.valid then copyPlan (s.withPorts c.ports) s.view else .ok none) := by
  simp only [writesInFlight, h]
  rfl

theorem writesInFlight_of_copyr (h : decode c.word = .ok .copyr) :
    writesInFlight c s = plannedWrites (if s.view.valid then rangePlan (s.withPorts c.ports) s.view else .ok none) := by
  simp only [writesInFlight, h]
  rfl

end

/-- The writes that a reset would tear are those the command makes when no reset comes (R162). -/
theorem runCommand_dst {c : Command} {s t : State} (h : runCommand c s = .next t) :
    t.dst = applyWrites (writesInFlight c s) s.dst := by
  cases hdecode : decode c.word with
  | error e =>
    rw [runCommand_of_error hdecode] at h
    obtain rfl := Host.Outcome.next.inj h
    rw [writesInFlight_of_error s hdecode]
    rfl
  | ok i =>
    rw [runCommand_of_ok hdecode] at h
    by_cases hcopy : i = .copy
    · subst hcopy
      rw [writesInFlight_of_copy s hdecode]
      exact readingView_carryOut_dst (s := s.withPorts c.ports) copyPlan_inside h
    by_cases hcopyr : i = .copyr
    · subst hcopyr
      rw [writesInFlight_of_copyr s hdecode]
      exact readingView_carryOut_dst (s := s.withPorts c.ports) rangePlan_inside h
    obtain ⟨x, hx, rfl⟩ := exec_inversion h
    rw [writesInFlight_of_not_copy s hdecode hcopy hcopyr]
    exact hx.next_dst_of_not_copy hcopy hcopyr

/-! A torn buffer (R162, S2). The free choice is made for an index and not for a write, so of the writes to one index all are made or
none is. -/

/-- Tearing makes the writes to the chosen indices. -/
theorem tearWrites_eq_applyWrites (k : Nat) (ws : List Write) (m : Memory) :
    tearWrites k ws m = applyWrites (ws.filter fun w => Config.tornByteIsNew k w.1.toNat) m := by
  rw [applyWrites, List.foldl_filter, tearWrites]

/-- What a byte reads as after writes depends only on those to its index. -/
theorem applyWrites_filter_read {p : Write → Bool} {ws : List Write} {m m' : Memory} {a : Nat} (hm : m.wf = true)
    (hm' : m'.wf = true) (hlim : ∀ w ∈ ws, w.1.toNat < Config.bufferLimit) (hp : ∀ w ∈ ws, w.1.toNat = a → p w = true)
    (h : m.read a = m'.read a) : (applyWrites (ws.filter p) m).read a = (applyWrites ws m').read a := by
  induction ws generalizing m m' with
  | nil => exact h
  | cons w ws ih =>
    obtain ⟨hw, hlim⟩ := List.forall_mem_cons.mp hlim
    obtain ⟨hpw, hp⟩ := List.forall_mem_cons.mp hp
    have hwf' := Memory.wf_write hm' hw w.2
    by_cases hkept : p w = true
    · rw [List.filter_cons_of_pos hkept]
      refine ih (Memory.wf_write hm hw w.2) hwf' hlim hp ?_
      rw [Memory.read_write hm, Memory.read_write hm', h]
    · rw [List.filter_cons_of_neg hkept]
      refine ih hm hwf' hlim hp ?_
      rw [Memory.read_write hm', if_neg fun ha => hkept (hpw ha.symm), h]

section
variable {k a : Nat} {ws : List Write} {m : Memory} (hm : m.wf = true) (hlim : ∀ w ∈ ws, w.1.toNat < Config.bufferLimit)
include hm hlim

theorem tearWrites_read_of_old (h : Config.tornByteIsNew k a = false) : (tearWrites k ws m).read a = m.read a := by
  rw [tearWrites_eq_applyWrites]
  refine applyWrites_read_of_ne hm (fun w hw => hlim w (List.mem_of_mem_filter hw)) fun w hw ha => ?_
  simp [← ha, List.of_mem_filter hw] at h

theorem tearWrites_read_of_new (h : Config.tornByteIsNew k a = true) :
    (tearWrites k ws m).read a = (applyWrites ws m).read a := by
  rw [tearWrites_eq_applyWrites]
  exact applyWrites_filter_read hm hm hlim (fun _ _ ha => ha ▸ h) rfl

end

/-- Settles O11: a byte not chosen is the old one, and a chosen one that of the buffer with all the command's writes made. -/
theorem resetDuringACommandTearsDst : Obligations.ResetDuringACommandTearsDst := by
  intro s c rest hinbox hdst
  have hlim : ∀ w ∈ writesInFlight c (s.withInbox rest), w.1.toNat < Config.bufferLimit := fun w hw =>
    toNat_lt_bufferLimit (writesInFlight_inside c _ w hw).2
  refine ⟨_, step_of_event hinbox, rfl, rfl, rfl, rfl, fun a => ?_⟩
  cases hchoice : Config.tornByteIsNew s.choice a
  · exact .inl (tearWrites_read_of_old hdst hlim hchoice)
  · obtain ⟨x, hrun, -⟩ := runCommand_effect c (s.withInbox rest)
    refine .inr ⟨_, (step_of_command rfl).trans hrun, ?_⟩
    rw [runCommand_dst hrun]
    exact tearWrites_read_of_new hdst hlim hchoice

/-! The first commands after reset (R161, R163). -/

/-- SHIFT at an index of its table answers OK (R80). -/
theorem effect_shift_status_of_in {w : Width} (f : Format) {s : State} (hlow : 0 ≤ indexOperand s)
    (hhigh : indexOperand s < bytes w) : (effect (.shift w f) s).resp.status = .ok := by
  obtain ⟨i, hi⟩ := Int.eq_ofNat_of_zero_le hlow
  rw [effect_shift_of_lt f hi (Int.ofNat_lt.mp (hi ▸ hhigh))]
  rfl

/-- Settles O14: the loads and SHIFT have no gate, and with no register constructed every other gate is closed. -/
theorem firstCommandsThatSucceed : Obligations.FirstCommandsThatSucceed := by
  refine fun s hview henum => ⟨fun w f hlow hhigh => ?_, fun w f g => ?_, fun w f g hlen => ?_, fun i hi => ?_⟩
  · exact ⟨_, _, exec_eq_effect (.shift w f) s, Effect.next_resp _ _, effect_shift_status_of_in f hlow hhigh⟩
  · exact ⟨_, _, exec_ldv w f g s, rfl, rfl, rfl⟩
  · exact ⟨_, _, exec_ldb_of_len_eq f g hlen, rfl, rfl, rfl⟩
  · exact exec_of_gateClosed ((List.mem_append.mp hi).imp (⟨·, hview⟩) (⟨·, henum⟩))

/-! Reset between commands (R160). -/

/-- The cells of the ROM are those of the rows of R25, and there are no others. -/
theorem romEntry_eq_ok_iff_romRow {w : Width} {f : Format} {i : Nat} {e : BitVec 6} :
    romEntry w f i = .ok e ↔ (Spec.romRow w f)[i]? = some e.toNat := by
  rw [romEntry_eq_ok_iff, romRow_eq, List.getElem?_eq_some_iff]
  simp [eq_comm]

/-- Settles O9: the reset event writes the two registers and the response, and the ROM is the written table. -/
theorem resetPutsTheRegistersAtTheirValues : Obligations.ResetPutsTheRegistersAtTheirValues :=
  ⟨rfl, rfl, fun _ _ hinbox => step_of_event hinbox, fun _ _ _ _ => romEntry_eq_ok_iff_romRow⟩

/-! The host's duties (R164 to R166). -/

/-- The commands that read LEN (R66). -/
theorem readsLen_iff {c : Command} : readsLen c = true ↔
    (∃ w f g, decode c.word = .ok (.ldb w f g)) ∨ decode c.word = .ok .copy ∨ decode c.word = .ok .copyr := by
  unfold readsLen
  cases decode c.word with
  | error e => simp
  | ok i => cases i <;> simp

section
variable {c : Command} (s : State)

theorem serveBreach_lenNotTrue_of_reads (h : readsLen c = true) : serveBreach c .lenNotTrue s = .refused .lenNotTrue :=
  if_pos h

theorem serveBreach_lenNotTrue_of_not_reads (h : ¬ readsLen c = true) : serveBreach c .lenNotTrue s = runCommand c s :=
  if_neg h

end

/-- Settles O12: every breach is refused as it is served, but a false LEN of a command that does not read LEN, which is run. -/
theorem brokenHostDutiesAreRefused : Obligations.BrokenHostDutiesAreRefused := by
  intro s c b rest hinbox
  have hstep : step s = serveBreach c b (s.withInbox rest) := step_of_event hinbox
  refine ⟨?_, ?_, ?_, ?_, ?_⟩ <;> rintro rfl
  · exact hstep
  · exact hstep
  · exact hstep
  · exact fun hreads => hstep.trans (serveBreach_lenNotTrue_of_reads _ (readsLen_iff.mpr hreads))
  · intro hreads
    calc step s
      _ = runCommand c (s.withInbox rest) := hstep.trans (serveBreach_lenNotTrue_of_not_reads _ (readsLen_iff.not.mpr hreads))
      _ = step (s.withInbox (.command c :: rest)) := (step_of_command (s := s.withInbox _) rfl).symm

end Sys2Proof.Machine
